-- ==== Sys2Proof/Word.lean ====
section
/-! DEFINITION. The words of the machine: 16-bit words, 8-bit characters, register indices, and the
list of cells that stands for the backing array (00_scope.md R7, R10; 10_state.md R28). -/

namespace Sys2Proof

/-- A register, a memory word, an address or an instruction: a 16-bit pattern with no inherent sign (R10). -/
abbrev Word := BitVec 16

/-- One character of the input or the output stream (R33, R37). -/
abbrev Byte := BitVec 8

/-- The index of one of the eight general registers (R21). -/
abbrev RegIx := Fin 8

/-- One listed word of memory: a word address and the word there. DESIGN CHOICE (log entry 1): the unit
is the spec's own, a 16-bit word, since this memory has no bytes and no byte order (R28, R63). -/
abbrev MemCell := Nat × Word

/-- The backing array as a list of cells (R28); its canonical form is `Memory.wf`. -/
abbrev Memory := List MemCell

end Sys2Proof
end

