-- ==== Sys2Proof/Syntax.lean ====
section
/-! DEFINITION. The instructions, one constructor for each row of spec/opcode_table.json (30_encoding.md
R99), with the fields of R93. Bits no field uses are not part of an instruction (R96). -/

namespace Sys2Proof

/-- The 16 opcodes the source names (R91). -/
inductive Opcode where
  | br | add | ld | st | jsr | and | ldr | str | rti | not | ldi | sti | jmp | res | lea | trap
  deriving DecidableEq, Repr

/-- An instruction as the decoder gives it. -/
inductive Instr where
  /-- BR (R140): the mask bits n, z, p and PCoffset9. -/
  | br (n z p : Bool) (off9 : BitVec 9)
  /-- ADD, register mode (R150). -/
  | addReg (dr sr1 sr2 : RegIx)
  /-- ADD, immediate mode (R151). -/
  | addImm (dr sr1 : RegIx) (imm5 : BitVec 5)
  /-- LD (R160). -/
  | ld (dr : RegIx) (off9 : BitVec 9)
  /-- ST (R170). -/
  | st (sr : RegIx) (off9 : BitVec 9)
  /-- JSR (R181). -/
  | jsr (off11 : BitVec 11)
  /-- JSRR (R182). -/
  | jsrr (base : RegIx)
  /-- AND, register mode (R152). -/
  | andReg (dr sr1 sr2 : RegIx)
  /-- AND, immediate mode (R153). -/
  | andImm (dr sr1 : RegIx) (imm5 : BitVec 5)
  /-- LDR (R162). -/
  | ldr (dr base : RegIx) (off6 : BitVec 6)
  /-- STR (R172). -/
  | str (sr base : RegIx) (off6 : BitVec 6)
  /-- RTI (R190), reserved. -/
  | rti
  /-- NOT (R154). -/
  | not (dr sr : RegIx)
  /-- LDI (R161). -/
  | ldi (dr : RegIx) (off9 : BitVec 9)
  /-- STI (R171). -/
  | sti (sr : RegIx) (off9 : BitVec 9)
  /-- JMP, and RET with base register 7 (R180). -/
  | jmp (base : RegIx)
  /-- RES (R191), reserved. -/
  | res
  /-- LEA (R163). -/
  | lea (dr : RegIx) (off9 : BitVec 9)
  /-- TRAP 0x20 (R201). -/
  | trapGetc
  /-- TRAP 0x21 (R202). -/
  | trapOut
  /-- TRAP 0x22 (R203). -/
  | trapPuts
  /-- TRAP 0x23 (R204). -/
  | trapIn
  /-- TRAP 0x24 (R205). -/
  | trapPutsp
  /-- TRAP 0x25 (R206). -/
  | trapHalt
  /-- TRAP with any other vector (R207). -/
  | trapOther (vect8 : Byte)
  deriving DecidableEq, Repr

/-- The opcode each instruction belongs to (R130). -/
def Instr.opcode : Instr → Opcode
  | .br _ _ _ _ => .br
  | .addReg _ _ _ => .add
  | .addImm _ _ _ => .add
  | .ld _ _ => .ld
  | .st _ _ => .st
  | .jsr _ => .jsr
  | .jsrr _ => .jsr
  | .andReg _ _ _ => .and
  | .andImm _ _ _ => .and
  | .ldr _ _ _ => .ldr
  | .str _ _ _ => .str
  | .rti => .rti
  | .not _ _ => .not
  | .ldi _ _ => .ldi
  | .sti _ _ => .sti
  | .jmp _ => .jmp
  | .res => .res
  | .lea _ _ => .lea
  | .trapGetc => .trap
  | .trapOut => .trap
  | .trapPuts => .trap
  | .trapIn => .trap
  | .trapPutsp => .trap
  | .trapHalt => .trap
  | .trapOther _ => .trap

end Sys2Proof
end

