-- ==== Sys2Proof/Decode.lean ====
section
/-! DEFINITION. The decoder, total on all 65536 words (30_encoding.md R97, 40_cycle.md R127, R130), the
encoder, and the opcode table of R99 as rows of mask and match.

PRESUMED (log entries 10, 11, 12; spec decisions D1, D2, D3): the opcode numbers, the places of the
register fields, of the JSR mode bit and of the BR mask bits are the LC-3's, as the spec takes them.
The source itself gives opcode `[15:12]`, bit 5 of ADD and AND, and the vector at `[7:0]`. -/

namespace Sys2Proof

/-! ## Opcode numbers (R91) -/

/-- The opcode a 4-bit number selects: the table of R91, read number to name. -/
def Opcode.ofBits (b : BitVec 4) : Opcode :=
  if b = 0x0#4 then .br
  else if b = 0x1#4 then .add
  else if b = 0x2#4 then .ld
  else if b = 0x3#4 then .st
  else if b = 0x4#4 then .jsr
  else if b = 0x5#4 then .and
  else if b = 0x6#4 then .ldr
  else if b = 0x7#4 then .str
  else if b = 0x8#4 then .rti
  else if b = 0x9#4 then .not
  else if b = 0xA#4 then .ldi
  else if b = 0xB#4 then .sti
  else if b = 0xC#4 then .jmp
  else if b = 0xD#4 then .res
  else if b = 0xE#4 then .lea
  else .trap

/-- The number of an opcode: the table of R91, read name to number. -/
def Opcode.bits : Opcode → BitVec 4
  | .br => 0x0#4
  | .add => 0x1#4
  | .ld => 0x2#4
  | .st => 0x3#4
  | .jsr => 0x4#4
  | .and => 0x5#4
  | .ldr => 0x6#4
  | .str => 0x7#4
  | .rti => 0x8#4
  | .not => 0x9#4
  | .ldi => 0xA#4
  | .sti => 0xB#4
  | .jmp => 0xC#4
  | .res => 0xD#4
  | .lea => 0xE#4
  | .trap => 0xF#4

/-! ## Fields of an instruction word (R93) -/

/-- `[15:12]`. -/
def opcodeField (w : Word) : BitVec 4 := w.extractLsb' 12 4

/-- A 3-bit register field whose lowest bit is `lo`. -/
def regField (w : Word) (lo : Nat) : RegIx := (w.extractLsb' lo 3).toFin

/-- DR, or the SR of a store: `[11:9]`. -/
def fieldA (w : Word) : RegIx := regField w 9

/-- SR1, the SR of NOT, or BaseR: `[8:6]`. -/
def fieldB (w : Word) : RegIx := regField w 6

/-- SR2: `[2:0]`. -/
def fieldC (w : Word) : RegIx := regField w 0

def imm5Field (w : Word) : BitVec 5 := w.extractLsb' 0 5
def off6Field (w : Word) : BitVec 6 := w.extractLsb' 0 6
def off9Field (w : Word) : BitVec 9 := w.extractLsb' 0 9
def off11Field (w : Word) : BitVec 11 := w.extractLsb' 0 11
def vect8Field (w : Word) : Byte := w.extractLsb' 0 8

/-! ## The decoder -/

/-- The service a trap vector selects (47_trap.md R200). -/
def decodeTrap (v : Byte) : Instr :=
  if v = 0x20#8 then .trapGetc
  else if v = 0x21#8 then .trapOut
  else if v = 0x22#8 then .trapPuts
  else if v = 0x23#8 then .trapIn
  else if v = 0x24#8 then .trapPutsp
  else if v = 0x25#8 then .trapHalt
  else .trapOther v

/-- Decode and dispatch (R127, R130): a pure function of the word, which cannot fail (R97). No word is
rejected, so there is no rejection to name. -/
def decode (w : Word) : Instr :=
  match Opcode.ofBits (opcodeField w) with
  | .br => .br (w.getLsbD 11) (w.getLsbD 10) (w.getLsbD 9) (off9Field w)
  | .add => if w.getLsbD 5 then .addImm (fieldA w) (fieldB w) (imm5Field w)
            else .addReg (fieldA w) (fieldB w) (fieldC w)
  | .ld => .ld (fieldA w) (off9Field w)
  | .st => .st (fieldA w) (off9Field w)
  | .jsr => if w.getLsbD 11 then .jsr (off11Field w) else .jsrr (fieldB w)
  | .and => if w.getLsbD 5 then .andImm (fieldA w) (fieldB w) (imm5Field w)
            else .andReg (fieldA w) (fieldB w) (fieldC w)
  | .ldr => .ldr (fieldA w) (fieldB w) (off6Field w)
  | .str => .str (fieldA w) (fieldB w) (off6Field w)
  | .rti => .rti
  | .not => .not (fieldA w) (fieldB w)
  | .ldi => .ldi (fieldA w) (off9Field w)
  | .sti => .sti (fieldA w) (off9Field w)
  | .jmp => .jmp (fieldB w)
  | .res => .res
  | .lea => .lea (fieldA w) (off9Field w)
  | .trap => decodeTrap (vect8Field w)

/-- The decoder on a word numbered as spec/opcode_table.json numbers its rows. Every row is one 16-bit
word (R90), so bits above the sixteenth do not exist and bits above `nbits` are 0. -/
def decodeTableWord (nbits w : Nat) : Option Instr :=
  some (decode (BitVec.ofNat 16 (w % 2 ^ nbits)))

/-! ## The encoder (R92, R100) -/

/-- A field at its place in a word: its lowest bit at bit `lo`, 0 elsewhere. -/
def place {k : Nat} (f : BitVec k) (lo : Nat) : Word := f.setWidth 16 <<< lo

/-- A register index as its 3-bit field. -/
def regBits (r : RegIx) : BitVec 3 := BitVec.ofNat 3 r.val

/-- The word of BR (format BR): n, z, p at bits 11, 10, 9. -/
def encodeBr (n z p : Bool) (off : BitVec 9) : Word :=
  place Opcode.br.bits 12 ||| place (BitVec.ofBool n) 11 ||| place (BitVec.ofBool z) 10 |||
    place (BitVec.ofBool p) 9 ||| place off 0

/-- The word of JSR (format JSR); the mode bit 11 is 1. -/
def encodeJsr (off : BitVec 11) : Word := place Opcode.jsr.bits 12 ||| place 0b1#1 11 ||| place off 0

/-- The word of NOT (format NOT); the ignored bits `[5:0]` are 111111. -/
def encodeNot (dr sr : RegIx) : Word :=
  place Opcode.not.bits 12 ||| place (regBits dr) 9 ||| place (regBits sr) 6 ||| place 0b111111#6 0

/-- The word of a PC-relative load, store or LEA (formats PC9L, PC9S). -/
def encodePc9 (op : Opcode) (r : RegIx) (off : BitVec 9) : Word :=
  place op.bits 12 ||| place (regBits r) 9 ||| place off 0

/-- The word of ADD or AND in register mode (format OPR); bit 5 is 0 and the ignored bits `[4:3]` are 00. -/
def encodeOpr (op : Opcode) (dr sr1 sr2 : RegIx) : Word :=
  place op.bits 12 ||| place (regBits dr) 9 ||| place (regBits sr1) 6 ||| place (regBits sr2) 0

/-- The word of ADD or AND in immediate mode (format OPI); bit 5 is 1. -/
def encodeOpi (op : Opcode) (dr sr1 : RegIx) (imm : BitVec 5) : Word :=
  place op.bits 12 ||| place (regBits dr) 9 ||| place (regBits sr1) 6 ||| place 0b1#1 5 ||| place imm 0

/-- The word of LDR or STR (formats B6L, B6S). -/
def encodeB6 (op : Opcode) (r base : RegIx) (off : BitVec 6) : Word :=
  place op.bits 12 ||| place (regBits r) 9 ||| place (regBits base) 6 ||| place off 0

/-- The word of JMP or JSRR: the ignored bits are 0. -/
def encodeBase (op : Opcode) (base : RegIx) : Word := place op.bits 12 ||| place (regBits base) 6

/-- The word of a TRAP: the ignored bits `[11:8]` are 0. -/
def encodeTrap (v : Byte) : Word := place Opcode.trap.bits 12 ||| place v 0

/-- The word of an instruction, with the assembler's fill in the bits the core ignores
(R96, R100; PRESUMED fill, log entry 13). -/
def encode : Instr → Word
  | .br n z p off => encodeBr n z p off
  | .addReg dr sr1 sr2 => encodeOpr .add dr sr1 sr2
  | .addImm dr sr1 imm => encodeOpi .add dr sr1 imm
  | .ld dr off => encodePc9 .ld dr off
  | .st sr off => encodePc9 .st sr off
  | .jsr off => encodeJsr off
  | .jsrr base => encodeBase .jsr base
  | .andReg dr sr1 sr2 => encodeOpr .and dr sr1 sr2
  | .andImm dr sr1 imm => encodeOpi .and dr sr1 imm
  | .ldr dr base off => encodeB6 .ldr dr base off
  | .str sr base off => encodeB6 .str sr base off
  | .rti => place Opcode.rti.bits 12
  | .not dr sr => encodeNot dr sr
  | .ldi dr off => encodePc9 .ldi dr off
  | .sti sr off => encodePc9 .sti sr off
  | .jmp base => encodeBase .jmp base
  | .res => place Opcode.res.bits 12
  | .lea dr off => encodePc9 .lea dr off
  | .trapGetc => encodeTrap 0x20#8
  | .trapOut => encodeTrap 0x21#8
  | .trapPuts => encodeTrap 0x22#8
  | .trapIn => encodeTrap 0x23#8
  | .trapPutsp => encodeTrap 0x24#8
  | .trapHalt => encodeTrap 0x25#8
  | .trapOther v => encodeTrap v

/-- The bits of an instruction's word that the core ignores (R96). -/
def ignoredBits : Instr → Word
  | .addReg _ _ _ => 0x0018#16
  | .andReg _ _ _ => 0x0018#16
  | .not _ _ => 0x003F#16
  | .jmp _ => 0x0E3F#16
  | .jsrr _ => 0x063F#16
  | .rti => 0x0FFF#16
  | .res => 0x0FFF#16
  | .trapGetc => 0x0F00#16
  | .trapOut => 0x0F00#16
  | .trapPuts => 0x0F00#16
  | .trapIn => 0x0F00#16
  | .trapPutsp => 0x0F00#16
  | .trapHalt => 0x0F00#16
  | .trapOther _ => 0x0F00#16
  | .br _ _ _ _ => 0x0000#16
  | .addImm _ _ _ => 0x0000#16
  | .ld _ _ => 0x0000#16
  | .st _ _ => 0x0000#16
  | .jsr _ => 0x0000#16
  | .andImm _ _ _ => 0x0000#16
  | .ldr _ _ _ => 0x0000#16
  | .str _ _ _ => 0x0000#16
  | .ldi _ _ => 0x0000#16
  | .sti _ _ => 0x0000#16
  | .lea _ _ => 0x0000#16

/-! ## The opcode table (R99) -/

/-- The mask and the match of the table row an instruction stands in: a word selects the row when
`w &&& mask = match`. -/
def Instr.tableRow : Instr → Word × Word
  | .br _ _ _ _ => (0xF000#16, 0x0000#16)
  | .addReg _ _ _ => (0xF020#16, 0x1000#16)
  | .addImm _ _ _ => (0xF020#16, 0x1020#16)
  | .ld _ _ => (0xF000#16, 0x2000#16)
  | .st _ _ => (0xF000#16, 0x3000#16)
  | .jsr _ => (0xF800#16, 0x4800#16)
  | .jsrr _ => (0xF800#16, 0x4000#16)
  | .andReg _ _ _ => (0xF020#16, 0x5000#16)
  | .andImm _ _ _ => (0xF020#16, 0x5020#16)
  | .ldr _ _ _ => (0xF000#16, 0x6000#16)
  | .str _ _ _ => (0xF000#16, 0x7000#16)
  | .rti => (0xF000#16, 0x8000#16)
  | .not _ _ => (0xF000#16, 0x9000#16)
  | .ldi _ _ => (0xF000#16, 0xA000#16)
  | .sti _ _ => (0xF000#16, 0xB000#16)
  | .jmp _ => (0xF000#16, 0xC000#16)
  | .res => (0xF000#16, 0xD000#16)
  | .lea _ _ => (0xF000#16, 0xE000#16)
  | .trapGetc => (0xF0FF#16, 0xF020#16)
  | .trapOut => (0xF0FF#16, 0xF021#16)
  | .trapPuts => (0xF0FF#16, 0xF022#16)
  | .trapIn => (0xF0FF#16, 0xF023#16)
  | .trapPutsp => (0xF0FF#16, 0xF024#16)
  | .trapHalt => (0xF0FF#16, 0xF025#16)
  | .trapOther _ => (0xF000#16, 0xF000#16)

end Sys2Proof
end

