-- ==== Sys2Proof/Config.lean ====
section
/-! DEFINITION. What one machine fixes: the sizes the source states (00_scope.md R7) and the parameters
it leaves open, which the model takes as arguments (R9). -/

namespace Sys2Proof

/-- The number of words of the backing array: MEMSIZE (R7). -/
abbrev memSize : Nat := 65536

/-- The condition-flags register holds exactly one of three values (10_state.md R25). -/
inductive Flag where
  | positive
  | zero
  | negative
  deriving DecidableEq, Repr

/-- The open parameters an instruction can observe (R9). They stand in State as data that no step
changes, so that every statement about every state holds for every value of them (log entries 7, 8, 9). -/
structure Params where
  /-- EOF_SENTINEL: what a blocking read returns at end of input (R36). -/
  eofSentinel : Word
  /-- EOF_KEY_PENDING: what the poll reports at end of input with nothing queued (R35). -/
  eofKeyPending : Bool
  /-- IN_PROMPT: the bytes the IN service emits first (47_trap.md R204). -/
  inPrompt : List Byte
  deriving DecidableEq, Repr

/-- The arguments of a reset (R9, 10_state.md R39, 70_reset_and_hazards.md R270, R271). -/
structure ResetParams where
  /-- INIT_MEM, as a canonical list of cells. -/
  initMem : Memory
  /-- ENTRY_PC, the image's load origin (R272). -/
  entryPc : Word
  /-- INIT_REG. -/
  initReg : Vector Word 8
  /-- INIT_COND. -/
  initCond : Flag
  params : Params
  deriving DecidableEq, Repr

end Sys2Proof
end

