-- ==== Sys2Proof/Machine/Defaults.lean ====
section
/-! DEFINITION. The values the model names where the spec leaves a parameter open (00_scope.md R9): the
spec's recommended defaults. DESIGN CHOICE throughout (log entries 2 to 9); unsafe for a claim about runs
from `State.reset`, and without effect on a claim about every state. -/

namespace Sys2Proof.Machine

/-- EOF_SENTINEL's default (92_eei_decisions.md D9). DESIGN CHOICE, log entry 7. -/
def defaultEofSentinel : Word := 0xFFFF#16

/-- EOF_KEY_PENDING's default (D10). DESIGN CHOICE, log entry 8. -/
def defaultEofKeyPending : Bool := true

/-- IN_PROMPT's default (D16): the 19 bytes of `Enter a character: `. DESIGN CHOICE, log entry 9. -/
def defaultInPrompt : List Byte :=
  [0x45#8, 0x6E#8, 0x74#8, 0x65#8, 0x72#8, 0x20#8, 0x61#8, 0x20#8, 0x63#8, 0x68#8,
   0x61#8, 0x72#8, 0x61#8, 0x63#8, 0x74#8, 0x65#8, 0x72#8, 0x3A#8, 0x20#8]

/-- The parameters at their defaults. -/
def defaultParams : Params :=
  { eofSentinel := defaultEofSentinel, eofKeyPending := defaultEofKeyPending,
    inPrompt := defaultInPrompt }

/-- INIT_REG's default (D5). DESIGN CHOICE, log entry 3. -/
def defaultInitReg : Vector Word 8 := Vector.replicate 8 0x0000#16

/-- The pc when no image has been loaded: the start address of the spec's own vectors
(95_test_vectors.md, Conventions). DESIGN CHOICE, log entry 5. -/
def defaultEntryPc : Word := 0x3000#16

/-- The arguments of a reset at their defaults, with no program image. -/
def defaultResetParams : ResetParams :=
  { initMem := [], entryPc := defaultEntryPc, initReg := defaultInitReg, initCond := .zero,
    params := defaultParams }

end Sys2Proof.Machine
end

