-- ==== Sys2Proof/Machine/State.lean ====
section
/-! DEFINITION. The state of the machine as plain data (10_state.md R20), the environment it answers to
(R33 to R38), the ways a step can stop, and reset (R39; 70_reset_and_hazards.md R270, R271). -/

namespace Sys2Proof.Machine

/-- What the environment does next (R33): a byte arrives, the stream ends, or its turn is over. -/
inductive EnvAct where
  | key (b : Byte)
  | endOfInput
  | pass
  deriving DecidableEq, Repr

/-- The input stream (R33). DESIGN CHOICE, log entry 33: the environment's coming actions are a finite list,
where the spec sets no end to them; after its last one the environment never acts again. -/
structure InputStream where
  /-- IN: the bytes that have arrived and are not yet consumed, next one first. -/
  queue : List Byte
  /-- EOF: the stream has signalled end of input. -/
  eof : Bool
  /-- The model's own field: the environment's coming actions, in order (log entries 14, 33). -/
  env : List EnvAct
  deriving DecidableEq, Repr

/-- One event of the I/O trace (R38). -/
inductive Event where
  /-- `Poll(result)`: a `KeyPending()` and its answer. -/
  | poll (result : Bool)
  /-- `In(c)`: a `NextChar()` that returned a character. -/
  | inChar (c : Byte)
  /-- `InEOF`: a `NextChar()` at end of input. -/
  | inEof
  /-- `Out(b)`: an `Emit`. -/
  | out (b : Byte)
  deriving DecidableEq, Repr

/-- The model's own field: where in its cycle the core stands between two steps (40_cycle.md R120, R123;
log entry 15). -/
inductive Stage where
  /-- The next thing is the fetch: between cycles, or waiting for input in the fetch itself. -/
  | fetch
  /-- `ir` is fetched and the pc advanced, and the instruction waits for input. -/
  | waiting
  /-- As `waiting`, in an IN service whose prompt is already out. -/
  | prompted
  deriving DecidableEq, Repr

/-- The whole state. -/
structure State where
  /-- x[0]..x[7] (R21). -/
  regs : Vector Word 8
  /-- The program counter (R23). -/
  pc : Word
  /-- The condition flags (R25). -/
  cond : Flag
  /-- The run-state flag (R29). -/
  running : Bool
  /-- The backing array M (R28), in the canonical form `Memory.wf`. -/
  mem : Memory
  /-- The latched instruction word (R27). -/
  ir : Word
  stage : Stage
  inp : InputStream
  /-- The I/O trace, oldest event first (R38). -/
  trace : List Event
  /-- The open parameters (00_scope.md R9). -/
  params : Params
  deriving DecidableEq, Repr

/-- The faults of the machine: none. "The core raises no synchronous exception" and no behaviour is given
the treatment fault (60_exceptions.md R240, 93_implementation_defined.md), so the type has no constructor
and nothing raises it. Safe: a run never ends in a fault the hardware lacks. -/
inductive Fault where
  deriving DecidableEq, Repr

/-- The refusals of the machine. -/
inductive Refusal where
  /-- The host's constructor for an instruction that has no meaning yet. No arm raises it: every
  instruction is modelled. Safe: a refusal proves nothing. -/
  | notModelled (mnemonic : String)
  deriving DecidableEq, Repr

/-- What an access that may need input answers (10_state.md R36, 20_memory.md R52): the word read and
the state after, or that it waits, with the state in which it waits. -/
inductive Access where
  | value (v : Word) (s : State)
  | waits (s : State)
  deriving DecidableEq, Repr

/-- Reset (R39, R270): every piece of core state at its parameter, `running` true, and the environment's
stream as it stands, since the core does not reset it. `ir` has no reset value in the spec: DESIGN
CHOICE 0, log entry 6. -/
def State.resetWith (p : ResetParams) (inp : InputStream) : State :=
  { regs := p.initReg, pc := p.entryPc, cond := p.initCond, running := true, mem := p.initMem,
    ir := 0x0000#16, stage := .fetch, inp := inp, trace := [], params := p.params }

/-- The machine right after reset with no image loaded and the parameters at their defaults, no input
come and none to come. DESIGN CHOICE, log entries 2 to 9 and 18. -/
def State.reset : State :=
  State.resetWith defaultResetParams { queue := [], eof := false, env := [] }

end Sys2Proof.Machine
end

