-- ==== Sys2Proof/Machine/Flags.lean ====
section
/-! DEFINITION. The condition flags: SetFlags (40_cycle.md R124), the one-hot encoding (10_state.md R25)
and the branch test (41_branch.md R140). There is no carry and no overflow flag (R124, R129). -/

namespace Sys2Proof.Machine

/-- The flag SetFlags chooses for a 16-bit word (R124). -/
def flagOf (v : Word) : Flag :=
  if v.getLsbD 15 then .negative else if v = 0x0000#16 then .zero else .positive

/-- SetFlags (R124): writes `cond` and nothing else. -/
def State.setFlags (s : State) (v : Word) : State := { s with cond := flagOf v }

/-- The one-hot value of a flag. PRESUMED, log entry 12 (92_eei_decisions.md D3). -/
def flagBits : Flag → BitVec 3
  | .positive => 0b001#3
  | .zero => 0b010#3
  | .negative => 0b100#3

/-- Whether a BR with mask bits n, z, p is taken (R140). -/
def branchTaken (n z p : Bool) (c : Flag) : Bool :=
  match c with
  | .negative => n
  | .zero => z
  | .positive => p

end Sys2Proof.Machine
end

