-- ==== Sys2Proof/Machine/Memory.lean ====
section
/-! DEFINITION. The backing array `M[a]` and `M[a] <- v` (10_state.md R28, 00_scope.md R12) over a
sorted list of cells. The device registers are not here: `Machine/Ops.lean` has them. -/

namespace Sys2Proof

/-- What an address no cell lists reads as. DESIGN CHOICE, log entry 2 (92_eei_decisions.md D7's default):
INIT_MEM gives 0 wherever no image reaches. -/
def Memory.fill : Word := 0x0000#16

/-- `M[a]`. -/
def Memory.read (m : Memory) (a : Nat) : Word :=
  match m with
  | [] => Memory.fill
  | c :: rest => if c.1 = a then c.2 else Memory.read rest a

/-- The cells at other addresses than `a`. -/
def Memory.erase (m : Memory) (a : Nat) : Memory := m.filter (fun c => c.1 != a)

/-- A cell put in its place by address. -/
def Memory.insert (m : Memory) (a : Nat) (v : Word) : Memory :=
  match m with
  | [] => [(a, v)]
  | c :: rest => if a < c.1 then (a, v) :: c :: rest else c :: Memory.insert rest a v

/-- `M[a] <- v`; writing what an unlisted address reads as lists nothing. -/
def Memory.write (m : Memory) (a : Nat) (v : Word) : Memory :=
  if v = Memory.fill then m.erase a else (m.erase a).insert a v

/-- Consecutive words stored from an address upwards. -/
def Memory.writeBlock (m : Memory) (a : Nat) (ws : List Word) : Memory :=
  match ws with
  | [] => m
  | w :: rest => Memory.writeBlock (m.write a w) (a + 1) rest

/-- Cells in the list lie at addresses of at least `lo`, strictly rising, below `memSize`, and none
holds the fill. -/
def Memory.wfFrom (lo : Nat) (m : Memory) : Bool :=
  match m with
  | [] => true
  | c :: rest =>
    decide (lo ≤ c.1) && decide (c.1 < memSize) && decide (c.2 ≠ Memory.fill) &&
      Memory.wfFrom (c.1 + 1) rest

/-- The canonical form: equal memories are equal lists. -/
def Memory.wf (m : Memory) : Bool := Memory.wfFrom 0 m

/-- The words from index `a` up to, not including, the first zero word, at most `fuel` of them: the walk
of PUTS and PUTSP (47_trap.md R203, R205). -/
def Memory.walk (m : Memory) (fuel : Nat) (a : Nat) : List Word :=
  match fuel with
  | 0 => []
  | n + 1 => if m.read a = 0x0000#16 then [] else m.read a :: Memory.walk m n (a + 1)

/-- The words of the string at `a`. The walk is over the array's index, ends after 0xFFFF and does not
wrap (R209). -/
def Memory.stringAt (m : Memory) (a : Word) : List Word := m.walk (memSize - a.toNat) a.toNat

end Sys2Proof
end

