-- ==== Sys2Proof/Machine/Operands.lean ====
section
/-! DEFINITION. Operands: sign extension (40_cycle.md R126), the two effective-address forms
(30_encoding.md R94, 20_memory.md R67), and characters inside words (47_trap.md R203, R205). All sums are
modulo 2^16 (R128). -/

namespace Sys2Proof.Machine

/-- `sext_16(f)` (R126): the field itself, or the field with all higher bits set when its top bit is. -/
def sext16 {k : Nat} (f : BitVec k) : Word :=
  if f.msb then f.setWidth 16 ||| (0xFFFF#16 <<< k) else f.setWidth 16

/-- `zext_16(c)` of a character (10_state.md R36). -/
def zext16 (c : Byte) : Word := c.setWidth 16

/-- `pc + sext_16(offset)`: the pc is the incremented one (R120, 70_reset_and_hazards.md R286). -/
def pcRelative {k : Nat} (pc : Word) (off : BitVec k) : Word := pc + sext16 off

/-- `x[BaseR] + sext_16(offset6)` (43_load.md R162, 44_store.md R172). -/
def baseOffset (base : Word) (off6 : BitVec 6) : Word := base + sext16 off6

/-- `w[7:0]`. -/
def lowByte (w : Word) : Byte := w.extractLsb' 0 8

/-- `w[15:8]`. -/
def highByte (w : Word) : Byte := w.extractLsb' 8 8

/-- The characters PUTSP emits for one word: the low byte always, then the high byte if it is not zero
(R205). -/
def packedBytes (w : Word) : List Byte :=
  if highByte w = 0x00#8 then [lowByte w] else [lowByte w, highByte w]

end Sys2Proof.Machine
end

