-- ==== Sys2Proof/Machine/Ops.lean ====
section
/-! DEFINITION. The named operations every instruction is written with: registers (10_state.md R21), the
input and output streams (R33 to R37), the Memory Subsystem with its device interception (20_memory.md
R52, R58), and how a cycle ends or waits (40_cycle.md R120, R123).

TAKING AN EXCEPTION AND RETURNING FROM ONE: there is no such operation, because the set of exception
causes is empty and RTI returns from nothing (60_exceptions.md R240, R246, R247; 46_reserved.md R190). -/

namespace Sys2Proof.Machine

/-! ## Registers -/

/-- `x[r]`. No register is hardwired (R21). -/
def State.reg (s : State) (r : RegIx) : Word := s.regs[r.val]

/-- `x[r] <- v`. -/
def State.setReg (s : State) (r : RegIx) (v : Word) : State := { s with regs := s.regs.set r.val v }

/-- `M[a]`, the cell itself, with no device interception (R28). -/
def State.cell (s : State) (a : Word) : Word := s.mem.read a.toNat

/-- The destination register and the flags written together, as ADD, AND, NOT, LEA and the loads end
(R125). -/
def State.setResult (s : State) (dr : RegIx) (v : Word) : State := (s.setReg dr v).setFlags v

/-! ## The environment, the input stream and the output stream -/

/-- The environment acts until its turn is over: a byte joins the tail of IN unless EOF is set, the end
of input sets EOF, and nothing else changes (R33). -/
def envTurn (env : List EnvAct) (queue : List Byte) (eof : Bool) : InputStream :=
  match env with
  | [] => { queue := queue, eof := eof, env := [] }
  | .pass :: rest => { queue := queue, eof := eof, env := rest }
  | .key b :: rest => envTurn rest (if eof then queue else queue ++ [b]) eof
  | .endOfInput :: rest => envTurn rest queue true

/-- The stream after the environment's turn. The environment may act between any two effects of the core
(R33, 92_eei_decisions.md D24); only `KeyPending()` and `NextChar()` look at the stream, so its turn comes
just before each of them. DEDUCED, log entry 14. With no action left its turn changes nothing: DESIGN CHOICE,
log entry 33. -/
def InputStream.turn (i : InputStream) : InputStream := envTurn i.env i.queue i.eof

/-- What `KeyPending()` reports of a stream (R35). -/
def pendingIn (p : Params) (i : InputStream) : Bool :=
  if i.queue = [] then i.eof && p.eofKeyPending else true

/-- The state after a `KeyPending()`: nothing is consumed, and the poll is in the trace (R35, R38). -/
def State.polled (s : State) : State :=
  { s with inp := s.inp.turn, trace := s.trace ++ [.poll (pendingIn s.params s.inp.turn)] }

/-- The answer of a `KeyPending()` made now (R35). -/
def State.keyPending (s : State) : Bool := pendingIn s.params s.inp.turn

/-- `NextChar()` (R36): the head of IN zero-extended (log entry 20), EOF_SENTINEL at end of input, and a
wait otherwise. -/
def State.nextChar (s : State) : Access :=
  match s.inp.turn with
  | { queue := c :: rest, eof := e, env := v } =>
    .value (zext16 c)
      { s with inp := { queue := rest, eof := e, env := v }, trace := s.trace ++ [.inChar c] }
  | { queue := [], eof := true, env := v } =>
    .value s.params.eofSentinel
      { s with inp := { queue := [], eof := true, env := v }, trace := s.trace ++ [.inEof] }
  | { queue := [], eof := false, env := v } =>
    .waits { s with inp := { queue := [], eof := false, env := v } }

/-- `Emit` of each byte in order (R37): each is visible at once, so a flush has nothing left to do (log
entry 26). -/
def State.emit (s : State) (bs : List Byte) : State := { s with trace := s.trace ++ bs.map .out }

/-- The byte of an output event. -/
def Event.outByte : Event → Option Byte
  | .out b => some b
  | .poll _ => none
  | .inChar _ => none
  | .inEof => none

/-- The byte of an event that consumed one. -/
def Event.inByte : Event → Option Byte
  | .inChar c => some c
  | .poll _ => none
  | .inEof => none
  | .out _ => none

/-- OUT, the output stream: the bytes emitted so far (R37), read off the trace (log entry 19). -/
def State.out (s : State) : List Byte := s.trace.filterMap Event.outByte

/-! ## The Memory Subsystem -/

/-- KBSR, keyboard status (00_scope.md R8; unaudited literals, log entry 32). -/
def kbsrAddr : Word := 0xFE00#16
/-- KBDR, keyboard data. -/
def kbdrAddr : Word := 0xFE02#16
/-- DSR, display status. -/
def dsrAddr : Word := 0xFE04#16
/-- DDR, display data. -/
def ddrAddr : Word := 0xFE06#16
/-- MCR, machine control. -/
def mcrAddr : Word := 0xFFFE#16

/-- The value of a status register that is ready: bit 15 alone (R8). -/
def readyWord : Word := 0x8000#16

/-- Whether a read of the address is answered by a device and not by the cell (R52). -/
def readIntercepted (a : Word) : Bool := a == kbsrAddr || a == kbdrAddr || a == dsrAddr

/-- `MemRead(a, 16)` (R52 to R56). No read changes M (R57, log entry 21). -/
def State.memRead (s : State) (a : Word) : Access :=
  if a = kbsrAddr then .value (if s.keyPending then readyWord else 0x0000#16) s.polled
  else if a = kbdrAddr then s.nextChar
  else if a = dsrAddr then .value readyWord s
  else .value (s.cell a) s

/-- `M[a] <- v`. -/
def State.setCell (s : State) (a v : Word) : State := { s with mem := s.mem.write a.toNat v }

/-- `MemWrite(a, 16, v)` (R58 to R61): every address stores (log entry 22); DDR also emits the low byte;
MCR with bit 15 clear also clears `running`. -/
def State.memWrite (s : State) (a v : Word) : State :=
  let t := s.setCell a v
  if a = ddrAddr then t.emit [lowByte v]
  else if a = mcrAddr ∧ v.getLsbD 15 = false then { t with running := false }
  else t

/-! ## How an instruction ends -/

/-- The cycle is complete; the next one begins with a fetch (R120). -/
def complete (s : State) : Host.Outcome State Fault Refusal := .next { s with stage := .fetch }

/-- The cycle waits for input, with the effects before the wait done (R123; log entries 15, 16). -/
def await (s : State) : Host.Outcome State Fault Refusal := .next { s with stage := .waiting }

/-- The end of a load: the word read goes to the register and the flags, or the cycle waits (R125, R123). -/
def finishLoad (dr : RegIx) (r : Access) : Host.Outcome State Fault Refusal :=
  match r with
  | .value v s => complete (s.setResult dr v)
  | .waits s => await s

end Sys2Proof.Machine
end

