-- ==== Sys2Proof/Machine/Branch.lean ====
section
/-! DEFINITION. The conditional branch (41_branch.md). -/

namespace Sys2Proof.Machine

/-- BR (R140, R141): mask 000 is never taken, mask 111 always. -/
def execBr (n z p : Bool) (off9 : BitVec 9) (s : State) : Host.Outcome State Fault Refusal :=
  complete (if branchTaken n z p s.cond then { s with pc := pcRelative s.pc off9 } else s)

end Sys2Proof.Machine
end

