-- ==== Sys2Proof/Machine/Jump.lean ====
section
/-! DEFINITION. JMP, JSR and JSRR (45_jump.md). -/

namespace Sys2Proof.Machine

/-- JMP; with base register 7 it is the subroutine return (R180). -/
def execJmp (base : RegIx) (s : State) : Host.Outcome State Fault Refusal :=
  complete { s with pc := s.reg base }

/-- JSR (R181): the link is the incremented pc, the value the offset is added to. -/
def execJsr (off11 : BitVec 11) (s : State) : Host.Outcome State Fault Refusal :=
  complete { s.setReg 7 s.pc with pc := pcRelative s.pc off11 }

/-- JSRR (R182): x[7] is written first and the base register read after it, so `JSRR R7` falls through
(90_conflicts.md C8). -/
def execJsrr (base : RegIx) (s : State) : Host.Outcome State Fault Refusal :=
  complete { s.setReg 7 s.pc with pc := (s.setReg 7 s.pc).reg base }

end Sys2Proof.Machine
end

