-- ==== Sys2Proof/Machine/Load.lean ====
section
/-! DEFINITION. LD, LDI, LDR and LEA (43_load.md). Every load goes through `MemRead` and so may poll,
consume a character or wait (20_memory.md R62). -/

namespace Sys2Proof.Machine

/-- LD (R160). -/
def execLd (dr : RegIx) (off9 : BitVec 9) (s : State) : Host.Outcome State Fault Refusal :=
  finishLoad dr (s.memRead (pcRelative s.pc off9))

/-- LDI (R161): the pointer is read first, then the word it points at; both reads see the devices. -/
def execLdi (dr : RegIx) (off9 : BitVec 9) (s : State) : Host.Outcome State Fault Refusal :=
  match s.memRead (pcRelative s.pc off9) with
  | .value ea t => finishLoad dr (t.memRead ea)
  | .waits t => await t

/-- LDR (R162): the base register is read before the destination is written (40_cycle.md R131). -/
def execLdr (dr base : RegIx) (off6 : BitVec 6) (s : State) : Host.Outcome State Fault Refusal :=
  finishLoad dr (s.memRead (baseOffset (s.reg base) off6))

/-- LEA (R163): no memory access; it sets the flags. -/
def execLea (dr : RegIx) (off9 : BitVec 9) (s : State) : Host.Outcome State Fault Refusal :=
  complete (s.setResult dr (pcRelative s.pc off9))

end Sys2Proof.Machine
end

