-- ==== Sys2Proof/Machine/Operate.lean ====
section
/-! DEFINITION. ADD, AND and NOT (42_operate.md). Sources are read before the destination is written
(40_cycle.md R131), sums are modulo 2^16 and unrecorded on overflow (R128, R129). -/

namespace Sys2Proof.Machine

/-- ADD, register mode (R150). -/
def execAddReg (dr sr1 sr2 : RegIx) (s : State) : Host.Outcome State Fault Refusal :=
  complete (s.setResult dr (s.reg sr1 + s.reg sr2))

/-- ADD, immediate mode (R151). -/
def execAddImm (dr sr1 : RegIx) (imm5 : BitVec 5) (s : State) : Host.Outcome State Fault Refusal :=
  complete (s.setResult dr (s.reg sr1 + sext16 imm5))

/-- AND, register mode (R152). -/
def execAndReg (dr sr1 sr2 : RegIx) (s : State) : Host.Outcome State Fault Refusal :=
  complete (s.setResult dr (s.reg sr1 &&& s.reg sr2))

/-- AND, immediate mode (R153). -/
def execAndImm (dr sr1 : RegIx) (imm5 : BitVec 5) (s : State) : Host.Outcome State Fault Refusal :=
  complete (s.setResult dr (s.reg sr1 &&& sext16 imm5))

/-- NOT (R154). -/
def execNot (dr sr : RegIx) (s : State) : Host.Outcome State Fault Refusal :=
  complete (s.setResult dr (~~~ s.reg sr))

end Sys2Proof.Machine
end

