-- ==== Sys2Proof/Machine/Reserved.lean ====
section
/-! DEFINITION. The reserved opcodes RTI and RES: no-ops (46_reserved.md). -/

namespace Sys2Proof.Machine

/-- RTI (R190): the cycle is its fetch and the pc increment only; nothing is restored. -/
def execRti (s : State) : Host.Outcome State Fault Refusal := complete s

/-- RES (R191): likewise; no illegal-opcode exception exists. -/
def execRes (s : State) : Host.Outcome State Fault Refusal := complete s

end Sys2Proof.Machine
end

