-- ==== Sys2Proof/Machine/Store.lean ====
section
/-! DEFINITION. ST, STI and STR (44_store.md). Every store goes through `MemWrite`. -/

namespace Sys2Proof.Machine

/-- ST (R170). -/
def execSt (sr : RegIx) (off9 : BitVec 9) (s : State) : Host.Outcome State Fault Refusal :=
  complete (s.memWrite (pcRelative s.pc off9) (s.reg sr))

/-- STI (R171): the pointer is read first, through `MemRead`, then the word is written through it. -/
def execSti (sr : RegIx) (off9 : BitVec 9) (s : State) : Host.Outcome State Fault Refusal :=
  match s.memRead (pcRelative s.pc off9) with
  | .value ea t => complete (t.memWrite ea (t.reg sr))
  | .waits t => await t

/-- STR (R172). -/
def execStr (sr base : RegIx) (off6 : BitVec 6) (s : State) : Host.Outcome State Fault Refusal :=
  complete (s.memWrite (baseOffset (s.reg base) off6) (s.reg sr))

end Sys2Proof.Machine
end

