-- ==== Sys2Proof/Machine/Trap.lean ====
section
/-! DEFINITION. TRAP: the six services and the undefined vectors (47_trap.md). A service runs inside the
TRAP's own cycle; it leaves the pc, x[7], the flags and memory alone (R200, R208; log entry 23). -/

namespace Sys2Proof.Machine

/-- GETC (R201): x[0] gets the next character; no echo, no flags. -/
def execTrapGetc (s : State) : Host.Outcome State Fault Refusal :=
  match s.nextChar with
  | .value v t => complete (t.setReg 0 v)
  | .waits t => await t

/-- OUT (R202): the low byte of x[0]. -/
def execTrapOut (s : State) : Host.Outcome State Fault Refusal :=
  complete (s.emit [lowByte (s.reg 0)])

/-- PUTS (R203): the low byte of each word of the string at x[0] (log entries 24, 25). -/
def execTrapPuts (s : State) : Host.Outcome State Fault Refusal :=
  complete (s.emit ((s.mem.stringAt (s.reg 0)).map lowByte))

/-- The state from which IN reads its character: the prompt goes out once, on the first attempt (R204,
40_cycle.md R123). -/
def promptedState (s : State) : State :=
  if s.stage = .prompted then s else s.emit s.params.inPrompt

/-- IN (R204): prompt, read, echo, in that order; a wait comes after the prompt. -/
def execTrapIn (s : State) : Host.Outcome State Fault Refusal :=
  match (promptedState s).nextChar with
  | .value v t => complete ((t.setReg 0 v).emit [lowByte v])
  | .waits t => .next { t with stage := .prompted }

/-- PUTSP (R205): two characters a word, and the end is a zero word. -/
def execTrapPutsp (s : State) : Host.Outcome State Fault Refusal :=
  complete (s.emit ((s.mem.stringAt (s.reg 0)).flatMap packedBytes))

/-- HALT (R206): clears `running`; nothing is emitted and M[0xFFFE] is not written. -/
def execTrapHalt (s : State) : Host.Outcome State Fault Refusal :=
  complete { s with running := false }

/-- Any other vector (R207): nothing (log entry 30). -/
def execTrapOther (_vect8 : Byte) (s : State) : Host.Outcome State Fault Refusal := complete s

end Sys2Proof.Machine
end

