-- ==== Sys2Proof/Machine/Cycle.lean ====
section
/-! DEFINITION. The instruction cycle (40_cycle.md R120 to R123): fetch, increment, decode, execute; and
going on with a cycle that waited for input. -/

namespace Sys2Proof.Machine

/-- The fetch: an ordinary `MemRead` at the pc, device effects included (20_memory.md R62, R71). -/
def State.fetch (s : State) : Access := s.memRead s.pc

/-- The fetched word latched and the pc advanced, modulo 2^16 (R120, 10_state.md R24, R27). -/
def State.latch (s : State) (w : Word) : State := { s with ir := w, pc := s.pc + 1 }

/-- A cycle from its start (R120). A wait inside the fetch has no effect but the environment's own, and
the cycle starts again (R123). -/
def beginCycle (s : State) : Host.Outcome State Fault Refusal :=
  match s.fetch with
  | .value w t => exec (decode w) (t.latch w)
  | .waits t => .next t

/-- A cycle that waits for input tries again: the instruction is the latched one, the pc is already
advanced. What the instruction did before its wait had no effect beyond the prompt of IN, which
`Stage.prompted` remembers. DEDUCED, log entry 15. -/
def resumeCycle (s : State) : Host.Outcome State Fault Refusal := exec (decode s.ir) s

/-- In HALTED no cycle begins and no state changes (60_exceptions.md R245; log entry 17). -/
def haltedCycle (s : State) : Host.Outcome State Fault Refusal := .next s

/-- The word stored where the next fetch reads it, and the machine made ready to fetch. A device address
does not give back what is stored there (20_memory.md R52), so there the pc moves to the default entry
first. Log entry 29. -/
def placeAtFetch (s : State) (w : Word) : State :=
  let pc := if readIntercepted s.pc then defaultEntryPc else s.pc
  { s with pc := pc, running := true, stage := .fetch, mem := s.mem.write pc.toNat w }

end Sys2Proof.Machine
end

