-- ==== Sys2Proof/Machine/Step.lean ====
section
/-! DEFINITION. One step of the machine: one instruction cycle, or one more attempt of a cycle that waits
for input (40_cycle.md R120 to R123). -/

namespace Sys2Proof.Machine

/-- The run loop's body (R121): a cycle begins only when `running` is true. -/
def step (s : State) : Host.Outcome State Fault Refusal :=
  if s.running then
    match s.stage with
    | .fetch => beginCycle s
    | .waiting => resumeCycle s
    | .prompted => resumeCycle s
  else haltedCycle s

/-- The state with an instruction's word, numbered as the opcode table numbers it, where the next step
fetches. It stands for what a loader does with a one-word program (log entries 5, 29). -/
def State.withFetchWord (s : State) (nbits w : Nat) : State :=
  placeAtFetch s (BitVec.ofNat 16 (w % 2 ^ nbits))

end Sys2Proof.Machine
end

