-- ==== Sys2Proof/Machine/Loader.lean ====
section
/-! DEFINITION. What the loader hands to the core (70_reset_and_hazards.md R273 to R276). The loader is
outside the core (00_scope.md R6) and writes the array directly, so no device sees it (R274). -/

namespace Sys2Proof.Machine

/-- The words of an image file, big-endian: the first byte of each pair is the more significant (R273). A
file with an odd number of bytes is refused (R275, 93_implementation_defined.md U14; log entry 27). -/
def imageWords (bytes : List Byte) : Option (List Word) :=
  match bytes with
  | [] => some []
  | [_] => none
  | hi :: lo :: rest => (imageWords rest).map (fun ws => (hi ++ lo) :: ws)

/-- The reset parameters an image gives (R274): ENTRY_PC is its first word, and its further words lie from
there upwards over the memory the base parameters give. An image with no origin, or one that runs past
0xFFFF, is refused (R275, U14; log entry 27). -/
def loadImage (base : ResetParams) (words : List Word) : Option ResetParams :=
  match words with
  | [] => none
  | origin :: body =>
    if origin.toNat + body.length ≤ memSize then
      some { base with entryPc := origin, initMem := base.initMem.writeBlock origin.toNat body }
    else none

/-- Reset with the image file's bytes loaded (R270, R272). -/
def State.resetWithImage (base : ResetParams) (inp : InputStream) (bytes : List Byte) : Option State :=
  (imageWords bytes).bind (fun ws => (loadImage base ws).map (fun p => State.resetWith p inp))

end Sys2Proof.Machine
end

