-- ==== Sys2Proof/Safety.lean ====
section
/-! DEFINITION. The terms claims are stated in: what an instruction leaves alone, which instructions write
what (10_state.md R22, R24, R26), when a read has its input, and the invariant of every run. -/

namespace Sys2Proof

/-! ## Who writes what -/

/-- The registers an instruction may write: DR, x[7] as a link, x[0] as a service's result (R22). -/
def Instr.writtenRegs : Instr → List RegIx
  | .addReg dr _ _ => [dr]
  | .addImm dr _ _ => [dr]
  | .andReg dr _ _ => [dr]
  | .andImm dr _ _ => [dr]
  | .not dr _ => [dr]
  | .ld dr _ => [dr]
  | .ldi dr _ => [dr]
  | .ldr dr _ _ => [dr]
  | .lea dr _ => [dr]
  | .jsr _ => [7]
  | .jsrr _ => [7]
  | .trapGetc => [0]
  | .trapIn => [0]
  | .br _ _ _ _ => []
  | .st _ _ => []
  | .sti _ _ => []
  | .str _ _ _ => []
  | .jmp _ => []
  | .rti => []
  | .res => []
  | .trapOut => []
  | .trapPuts => []
  | .trapPutsp => []
  | .trapHalt => []
  | .trapOther _ => []

/-- The seven opcodes that call SetFlags (R26, 40_cycle.md R125). -/
def Opcode.setsFlags : Opcode → Bool
  | .add => true
  | .and => true
  | .not => true
  | .ld => true
  | .ldi => true
  | .ldr => true
  | .lea => true
  | .br => false
  | .st => false
  | .sti => false
  | .str => false
  | .jmp => false
  | .jsr => false
  | .rti => false
  | .res => false
  | .trap => false

/-- The opcodes that write the pc after its increment: BR, JMP, JSR and JSRR (R24). -/
def Opcode.writesPc : Opcode → Bool
  | .br => true
  | .jmp => true
  | .jsr => true
  | .add => false
  | .and => false
  | .not => false
  | .ld => false
  | .ldi => false
  | .ldr => false
  | .lea => false
  | .st => false
  | .sti => false
  | .str => false
  | .rti => false
  | .res => false
  | .trap => false

/-- The instructions that look at the input stream when executed: through `MemRead` the loads and STI
(its pointer), and the services GETC and IN (10_state.md R32, 60_exceptions.md R250). -/
def Instr.mayWait : Instr → Bool
  | .ld _ _ => true
  | .ldi _ _ => true
  | .ldr _ _ _ => true
  | .sti _ _ => true
  | .trapGetc => true
  | .trapIn => true
  | .br _ _ _ _ => false
  | .addReg _ _ _ => false
  | .addImm _ _ _ => false
  | .st _ _ => false
  | .jsr _ => false
  | .jsrr _ => false
  | .andReg _ _ _ => false
  | .andImm _ _ _ => false
  | .str _ _ _ => false
  | .rti => false
  | .not _ _ => false
  | .jmp _ => false
  | .res => false
  | .lea _ _ => false
  | .trapOut => false
  | .trapPuts => false
  | .trapPutsp => false
  | .trapHalt => false
  | .trapOther _ => false

end Sys2Proof

namespace Sys2Proof.Machine

/-! ## What stays -/

/-- Every register but the listed ones is unchanged. -/
def KeepsRegs (s t : State) (written : List RegIx) : Prop := ∀ r : RegIx, r ∉ written → t.reg r = s.reg r

/-- Every word of memory reads as before. -/
def KeepsCells (s t : State) : Prop := ∀ a : Word, t.cell a = s.cell a

/-- The run-state flag, the latched word and the parameters are unchanged. -/
def KeepsControl (s t : State) : Prop := t.running = s.running ∧ t.ir = s.ir ∧ t.params = s.params

/-- Nothing was read from the input stream, and nothing was emitted. -/
def KeepsStreams (s t : State) : Prop := t.inp = s.inp ∧ t.trace = s.trace

/-- The flags describe a word as a signed number (40_cycle.md R124, 95_test_vectors.md E1). -/
def FlagsSay (t : State) (v : Word) : Prop :=
  (t.cond = .negative ↔ v.toInt < 0) ∧ (t.cond = .zero ↔ v.toInt = 0) ∧ (t.cond = .positive ↔ 0 < v.toInt)

/-- An instruction whose whole effect is a register and the flags that describe it: all else stays, and
the cycle is complete (R125, 42_operate.md). -/
def OnlyResult (s t : State) (dr : RegIx) : Prop :=
  FlagsSay t (t.reg dr) ∧ KeepsRegs s t [dr] ∧ t.pc = s.pc ∧ KeepsCells s t ∧ KeepsControl s t ∧
    KeepsStreams s t ∧ t.stage = .fetch

/-- An instruction whose whole effect is the pc and the listed registers (45_jump.md, 41_branch.md). -/
def OnlyTransfer (s t : State) (written : List RegIx) : Prop :=
  KeepsRegs s t written ∧ t.cond = s.cond ∧ KeepsCells s t ∧ KeepsControl s t ∧ KeepsStreams s t ∧
    t.stage = .fetch

/-- The end of a load: the word `v` read is in the register and the flags, the streams are as the reads
left them in `u`, and all else stays (43_load.md). -/
def OnlyLoaded (s u t : State) (dr : RegIx) (v : Word) : Prop :=
  t.reg dr = v ∧ FlagsSay t v ∧ KeepsRegs s t [dr] ∧ t.pc = s.pc ∧ KeepsCells s t ∧ KeepsControl s t ∧
    t.inp = u.inp ∧ t.trace = u.trace ∧ t.stage = .fetch

/-- The end of a store of `v` at `a`, the streams before it being as in `u`: that one word, the character
a DDR write emits, the run-state flag an MCR write clears, and all else stays (44_store.md,
20_memory.md R58). -/
def OnlyStored (s u t : State) (a v : Word) : Prop :=
  t.cell a = v ∧ (∀ b : Word, b ≠ a → t.cell b = s.cell b) ∧
    t.trace = (if a = 0xFE06#16 then u.trace ++ [.out (v.setWidth 8)] else u.trace) ∧
    t.running = (if a = 0xFFFE#16 ∧ v.getLsbD 15 = false then false else s.running) ∧
    KeepsRegs s t [] ∧ t.cond = s.cond ∧ t.pc = s.pc ∧ t.ir = s.ir ∧ t.params = s.params ∧
    t.inp = u.inp ∧ t.stage = .fetch

/-! ## When a read can be answered -/

/-- The environment's turn leaves a character, or the end of input, to be read (10_state.md R36). -/
def State.inputReady (s : State) : Bool := (!s.inp.turn.queue.isEmpty) || s.inp.turn.eof

/-- A read of the address is answered without a wait (20_memory.md R52). -/
def State.readable (s : State) (a : Word) : Bool := a != kbdrAddr || s.inputReady

/-- The byte a coming action of the environment brings. -/
def EnvAct.byte : EnvAct → Option Byte
  | .key b => some b
  | .endOfInput => none
  | .pass => none

/-! ## What is stored, and where -/

/-- The address and the word an instruction stores, by the expressions its meaning uses: `none` for one
that stores nothing, or an STI whose pointer read waits (44_store.md R170 to R172). -/
def State.storeOf (s : State) : Instr → Option (Word × Word)
  | .st sr off9 => some (pcRelative s.pc off9, s.reg sr)
  | .str sr base off6 => some (baseOffset (s.reg base) off6, s.reg sr)
  | .sti sr off9 =>
    match s.memRead (pcRelative s.pc off9) with
    | .value ea _ => some (ea, s.reg sr)
    | .waits _ => none
  | .br _ _ _ _ => none
  | .addReg _ _ _ => none
  | .addImm _ _ _ => none
  | .ld _ _ => none
  | .jsr _ => none
  | .jsrr _ => none
  | .andReg _ _ _ => none
  | .andImm _ _ _ => none
  | .ldr _ _ _ => none
  | .rti => none
  | .not _ _ => none
  | .ldi _ _ => none
  | .jmp _ => none
  | .res => none
  | .lea _ _ => none
  | .trapGetc => none
  | .trapOut => none
  | .trapPuts => none
  | .trapIn => none
  | .trapPutsp => none
  | .trapHalt => none
  | .trapOther _ => none

/-! ## The instruction a step executes -/

/-- The instruction the next step executes and the state it executes it in: the fetched word's, with the
word latched and the pc advanced, or the latched word's when a cycle is being gone on with; `none` when
HALTED or when the fetch itself waits (40_cycle.md R120, R123). -/
def State.issued (s : State) : Option (Instr × State) :=
  if s.running then
    match s.stage with
    | .fetch =>
      match s.fetch with
      | .value w t => some (decode w, t.latch w)
      | .waits _ => none
    | .waiting => some (decode s.ir, s)
    | .prompted => some (decode s.ir, s)
  else none

/-! ## The invariant -/

/-- The instruction's next read is of the keyboard data register, or is a service's own `NextChar()`: the
only places a wait can be (40_cycle.md R123). LDI can also be waiting at the word its pointer names. -/
def State.awaitsInput (s : State) : Instr → Bool
  | .ld _ off9 => pcRelative s.pc off9 == kbdrAddr
  | .ldr _ base off6 => baseOffset (s.reg base) off6 == kbdrAddr
  | .ldi _ off9 =>
    pcRelative s.pc off9 == kbdrAddr ||
      (!readIntercepted (pcRelative s.pc off9) && s.cell (pcRelative s.pc off9) == kbdrAddr)
  | .sti _ off9 => pcRelative s.pc off9 == kbdrAddr
  | .trapGetc => true
  | .trapIn => true
  | .br _ _ _ _ => false
  | .addReg _ _ _ => false
  | .addImm _ _ _ => false
  | .st _ _ => false
  | .jsr _ => false
  | .jsrr _ => false
  | .andReg _ _ _ => false
  | .andImm _ _ _ => false
  | .str _ _ _ => false
  | .rti => false
  | .not _ _ => false
  | .jmp _ => false
  | .res => false
  | .lea _ _ => false
  | .trapOut => false
  | .trapPuts => false
  | .trapPutsp => false
  | .trapHalt => false
  | .trapOther _ => false

/-- A cycle waits only where input is read, while the core runs, and with nothing to read (R123, R36): IN
with its prompt out, any other instruction with no effect yet. -/
def State.stageOk (s : State) : Bool :=
  match s.stage with
  | .fetch => true
  | .waiting =>
    s.running && s.awaitsInput (decode s.ir) && decode s.ir != .trapIn && s.inp.queue.isEmpty && !s.inp.eof
  | .prompted => s.running && decode s.ir == .trapIn && s.inp.queue.isEmpty && !s.inp.eof

/-- The invariant of every run: memory in its canonical form, and waits only where a wait can be. -/
def State.inv (s : State) : Bool := s.mem.wf && s.stageOk

end Sys2Proof.Machine
end

