-- ==== Sys2Proof/Certificates/Slice0/Obligations.lean ====
section
/-! DEFINITION. The statements for the provers, by subject: reset and load, encoding, flags and operands,
the Memory Subsystem and the streams, the instructions, the cycle, and the rules over the whole machine. -/

open Sys2Proof Sys2Proof.Machine

/-! ## Reset and load -/

/-- R39, R271: every piece of core state after reset is its parameter, `running` is true, the environment's
stream is left as it is, and nothing has been emitted. For every value of the parameters. -/
def Obligations.ResetGivesTheParameters : Prop :=
  ∀ (p : ResetParams) (inp : InputStream),
    (State.resetWith p inp).running = true ∧ (State.resetWith p inp).pc = p.entryPc ∧
    (∀ a : Word, (State.resetWith p inp).cell a = p.initMem.read a.toNat) ∧
    (∀ r : RegIx, (State.resetWith p inp).reg r = p.initReg[r.val]) ∧
    (State.resetWith p inp).cond = p.initCond ∧ (State.resetWith p inp).inp = inp ∧
    (State.resetWith p inp).out = []

/-- R273, R274, R272: the file of a program image, two bytes a word with the more significant first, makes
the reset state whose pc is the first word, whose memory holds the further words from there upwards and the
base contents elsewhere, with nothing emitted and the core running: no device saw the load. -/
def Obligations.ImageLoadsAtItsOrigin : Prop :=
  ∀ (base : ResetParams) (inp : InputStream) (origin : Word) (body : List Word),
    origin.toNat + body.length ≤ 65536 →
    ∃ s, State.resetWithImage base inp
        ((origin :: body).flatMap fun w => [w.extractLsb' 8 8, w.extractLsb' 0 8]) = some s ∧
      s.pc = origin ∧
      (∀ k (h : k < body.length), s.cell (origin + BitVec.ofNat 16 k) = body[k]) ∧
      (∀ a : Word, (a.toNat < origin.toNat ∨ origin.toNat + body.length ≤ a.toNat) →
        s.cell a = base.initMem.read a.toNat) ∧
      s.running = true ∧ s.trace = [] ∧ s.inp = inp

/-- The invariant holds after every reset with canonical memory, after every accepted image, and of
`State.reset`, whatever values the model names there (log entries 2 to 9, 18: the model's choice). -/
def Obligations.InvariantAtReset : Prop :=
  (∀ (p : ResetParams) (inp : InputStream), p.initMem.wf = true → (State.resetWith p inp).inv = true) ∧
  (∀ (base : ResetParams) (inp : InputStream) (bytes : List Byte) (s : State), base.initMem.wf = true →
    State.resetWithImage base inp bytes = some s → s.inv = true) ∧
  State.reset.inv = true

/-! ## Encoding -/

/-- Decoding the word of any well-formed instruction gives the instruction back, with every operand at
every value. It rests on the opcode numbers and field places of log entries 10 to 12 (PRESUMED). -/
def Obligations.DecodeOfEncodeIsTheInstruction : Prop :=
  ∀ i : Instr, i.wf = true → decode (encode i) = i

/-- Every word's instruction is well-formed, and encoding it gives the word back in every bit the core
does not ignore (R96, D4: log entry 13). -/
def Obligations.EncodeOfDecodeKeepsUsedBits : Prop :=
  ∀ w : Word, (decode w).wf = true ∧
    encode (decode w) &&& ~~~ ignoredBits (decode w) = w &&& ~~~ ignoredBits (decode w)

/-- R96: words that differ only in ignored bits are one instruction. The bits are ignored by the spec's
decision D4 (log entry 13). -/
def Obligations.IgnoredBitsDoNotMatter : Prop :=
  ∀ w x : Word, decode (w ^^^ (x &&& ignoredBits (decode w))) = decode w

/-- R99: every word selects the table row its instruction stands in, and no other row but the catch-all
TRAP row, over which a defined service's larger mask wins. The numbers are PRESUMED (log entries 10, 11), and
that a mask leaves out the ignored bits is D4 (log entry 13). -/
def Obligations.DecodeFollowsTheOpcodeTable : Prop :=
  (∀ w : Word, w &&& (decode w).tableRow.1 = (decode w).tableRow.2) ∧
  (∀ (w : Word) (i : Instr), w &&& i.tableRow.1 = i.tableRow.2 →
    i.tableRow = (decode w).tableRow ∨
      (i.tableRow = (0xF000#16, 0xF000#16) ∧ (decode w).tableRow.1 = 0xF0FF#16))

/-- Words of the spec's examples (95_test_vectors.md) decode to the instructions they are written for. The
numbers and field places are PRESUMED (log entries 10, 11), the mask bits of 0x0403 too (D3: log entry 12);
that 0x129B, 0x46BF, 0x8FFF, 0xDABC and 0xFF25 decode in spite of set ignored bits is R96's decision D4 (log
entry 13). -/
def Obligations.ExampleWordsDecode : Prop :=
  decode 0x1283#16 = .addReg 1 2 3 ∧ decode 0x129B#16 = .addReg 1 2 3 ∧ decode 0x127F#16 = .addImm 1 1 0x1F#5 ∧
  decode 0x0403#16 = .br false true false 3#9 ∧ decode 0x667F#16 = .ldr 3 1 0x3F#6 ∧
  decode 0xB405#16 = .sti 2 5#9 ∧ decode 0x4C00#16 = .jsr 0x400#11 ∧ decode 0x46BF#16 = .jsrr 2 ∧
  decode 0xC1C0#16 = .jmp 7 ∧ decode 0x8FFF#16 = .rti ∧ decode 0xDABC#16 = .res ∧
  decode 0xFF25#16 = .trapHalt ∧ decode 0xF026#16 = .trapOther 0x26#8

/-! ## Flags and operands -/

/-- R124: SetFlags gives NEGATIVE iff bit 15 is set, ZERO iff the word is 0, POSITIVE otherwise, the signed
reading of the word, and writes nothing but `cond`. -/
def Obligations.SetFlagsDescribesTheWord : Prop :=
  ∀ (s : State) (v : Word),
    ((s.setFlags v).cond = .negative ↔ v.getLsbD 15 = true) ∧
    ((s.setFlags v).cond = .zero ↔ v = 0#16) ∧
    ((s.setFlags v).cond = .positive ↔ v.getLsbD 15 = false ∧ v ≠ 0#16) ∧
    FlagsSay (s.setFlags v) v ∧ { s.setFlags v with cond := s.cond } = s

/-- R126: for fields of 5, 6, 9 and 11 bits, sign extension keeps the two's-complement value, truncating
gives the field back, a field with its sign bit clear is unchanged, and one with it set has all higher bits
set. -/
def Obligations.SignExtensionKeepsTheValue : Prop :=
  ∀ k ∈ [5, 6, 9, 11], ∀ f : BitVec k,
    (sext16 f).toInt = f.toInt ∧ (sext16 f).setWidth k = f ∧
    (f.getLsbD (k - 1) = false → (sext16 f).toNat = f.toNat) ∧
    (f.getLsbD (k - 1) = true → ∀ n, k ≤ n → n < 16 → (sext16 f).getLsbD n = true)

/-- R67, R94: effective addresses are the base plus the signed offset, modulo 2^16. -/
def Obligations.EffectiveAddressesWrap : Prop :=
  (∀ (pc : Word) (off9 : BitVec 9),
    ((pcRelative pc off9).toNat : Int) = ((pc.toNat : Int) + off9.toInt) % 65536) ∧
  (∀ (pc : Word) (off11 : BitVec 11),
    ((pcRelative pc off11).toNat : Int) = ((pc.toNat : Int) + off11.toInt) % 65536) ∧
  (∀ (base : Word) (off6 : BitVec 6),
    ((baseOffset base off6).toNat : Int) = ((base.toNat : Int) + off6.toInt) % 65536)

/-- R25, R95: the branch test by cases is the test of the mask n z p against the one-hot flag value. The
one-hot values are PRESUMED (log entry 12). -/
def Obligations.BranchTestIsMaskTest : Prop :=
  ∀ (n z p : Bool) (c : Flag),
    branchTaken n z p c =
      decide ((BitVec.ofBool n ++ BitVec.ofBool z ++ BitVec.ofBool p) &&& flagBits c ≠ 0#3)

/-! ## The Memory Subsystem and the streams -/

/-- R52 to R56: what a read of each address answers. That a read of 0xFE06 or 0xFFFE gives the cell is the spec's
own reading (R56, 90_conflicts.md C3); when the environment acts is log entry 14. -/
def Obligations.MemReadAnswersByAddress : Prop :=
  ∀ (s : State) (a : Word),
    (a = 0xFE00#16 → ∃ u, s.memRead a = .value (if s.keyPending then 0x8000#16 else 0x0000#16) u ∧
      u.inp = s.inp.turn ∧ u.trace = s.trace ++ [.poll s.keyPending]) ∧
    (a = 0xFE02#16 → s.memRead a = s.nextChar) ∧
    (a = 0xFE04#16 → s.memRead a = .value 0x8000#16 s) ∧
    (a ≠ 0xFE00#16 → a ≠ 0xFE02#16 → a ≠ 0xFE04#16 → s.memRead a = .value (s.cell a) s)

/-- R57: no read changes memory, a register, the flags, the pc or the run state, answered or waiting. That
a device read leaves the cell alone is the spec's decision D11 (log entry 21). -/
def Obligations.ReadsTouchOnlyTheStreams : Prop :=
  ∀ (s u : State) (a : Word), ((∃ v, s.memRead a = .value v u) ∨ s.memRead a = .waits u) →
    KeepsCells s u ∧ KeepsRegs s u [] ∧ u.cond = s.cond ∧ u.pc = s.pc ∧ u.stage = s.stage ∧ KeepsControl s u

/-- R58, R59, R61: a write to any address stores the word there and nowhere else; only DDR emits, only MCR
can clear `running`, and no write touches the input stream. That a DDR write stores is the spec's decision
D12 (log entry 22). -/
def Obligations.MemWriteStoresEverywhere : Prop :=
  ∀ (s : State) (a v : Word),
    (s.memWrite a v).cell a = v ∧ (∀ b : Word, b ≠ a → (s.memWrite a v).cell b = s.cell b) ∧
    (s.memWrite a v).trace = (if a = 0xFE06#16 then s.trace ++ [.out (v.setWidth 8)] else s.trace) ∧
    (s.memWrite a v).running = (if a = 0xFFFE#16 ∧ v.getLsbD 15 = false then false else s.running) ∧
    (s.memWrite a v).inp = s.inp ∧
    KeepsRegs s (s.memWrite a v) [] ∧ (s.memWrite a v).cond = s.cond ∧ (s.memWrite a v).pc = s.pc

/-- R60: a write to MCR stores the word, whatever it is, and then the core runs on exactly if it ran and bit
15 is set; so a write can clear `running` and never set it. A cycle of ST, STI or STR that stores there runs to
its end, its pc increment kept (R122). That a read gives the stored word back is the spec's own reading of a
"plain store" entry in the read column (R56, 90_conflicts.md C3). -/
def Obligations.ControlRegisterWriteHalts : Prop :=
  (∀ (s : State) (v : Word),
    (s.memWrite 0xFFFE#16 v).cell 0xFFFE#16 = v ∧
    (s.memWrite 0xFFFE#16 v).running = (s.running && v.getLsbD 15) ∧
    (s.memWrite 0xFFFE#16 v).memRead 0xFFFE#16 = .value v (s.memWrite 0xFFFE#16 v)) ∧
  (∀ (s u : State) (i : Instr) (v : Word), s.issued = some (i, u) → u.storeOf i = some (0xFFFE#16, v) →
    ∃ t, step s = .next t ∧ t.cell 0xFFFE#16 = v ∧ t.running = v.getLsbD 15 ∧ t.pc = u.pc ∧ t.stage = .fetch)

/-- R33: in its turn the environment only appends to the tail of IN, nothing once EOF is set, before the turn
or within it, and never clears EOF. What is appended is exactly the bytes its actions bring before the first
end of input among them; EOF is set exactly if it was or one of them sets it; and the actions after the turn
are those that were to come after it. The queue is the spec's own model, D8 and D24 (log entry 14), the list of
coming actions the model's (log entry 33). -/
def Obligations.EnvironmentOnlyAppends : Prop :=
  (∀ i : InputStream, ∃ arrived, i.turn.queue = i.queue ++ arrived ∧ (i.eof = true → arrived = []) ∧
    (i.eof = true → i.turn.eof = true) ∧ i.turn.env.length ≤ i.env.length) ∧
  (∀ i : InputStream,
    let acts := i.env.takeWhile (· != .pass)
    i.turn.queue = i.queue ++
      (if i.eof then [] else (acts.takeWhile (· != .endOfInput)).filterMap EnvAct.byte) ∧
    (i.turn.eof = true ↔ i.eof = true ∨ .endOfInput ∈ acts) ∧
    i.turn.env = (i.env.dropWhile (· != .pass)).drop 1)

/-- R35: the poll answers true with a character queued, false with none and no end of input, and the
parameter at end of input, and it consumes nothing (D8, D10: log entries 8, 14). -/
def Obligations.PollAnswersWithoutConsuming : Prop :=
  ∀ s : State,
    (s.inp.turn.queue ≠ [] → s.keyPending = true) ∧
    (s.inp.turn.queue = [] → s.inp.turn.eof = false → s.keyPending = false) ∧
    (s.inp.turn.queue = [] → s.inp.turn.eof = true → s.keyPending = s.params.eofKeyPending) ∧
    s.polled.inp = s.inp.turn

/-- R35, R287: after a poll that answered 0x8000, a read of the keyboard data register does not wait,
whatever the environment adds in between and whatever it does next. -/
def Obligations.ReadAfterPositivePollDoesNotWait : Prop :=
  ∀ s u t : State, s.memRead 0xFE00#16 = .value 0x8000#16 u →
    (∃ more, t.inp.queue = u.inp.queue ++ more) → (u.inp.eof = true → t.inp.eof = true) →
    ∃ v t', t.memRead 0xFE02#16 = .value v t'

/-- R36: NextChar takes the head of IN, zero-extended; at end of input it gives EOF_SENTINEL and changes
neither IN nor EOF; with neither it waits. Zero extension is D8, the sentinel D9 (log entries 20, 7). -/
def Obligations.NextCharTakesTheHead : Prop :=
  ∀ s : State,
    (∀ c rest, s.inp.turn.queue = c :: rest → ∃ u, s.nextChar = .value (0x00#8 ++ c) u ∧
      u.inp.queue = rest ∧ u.inp.eof = s.inp.turn.eof ∧ u.trace = s.trace ++ [.inChar c]) ∧
    (s.inp.turn.queue = [] → s.inp.turn.eof = true → ∃ u, s.nextChar = .value s.params.eofSentinel u ∧
      u.inp.queue = [] ∧ u.inp.eof = true ∧ u.trace = s.trace ++ [.inEof] ∧
      ∃ u', u.nextChar = .value s.params.eofSentinel u') ∧
    (s.inp.turn.queue = [] → s.inp.turn.eof = false → s.nextChar = .waits { s with inp := s.inp.turn })

/-! ## The instructions -/

/-- R140, R141: BR adds the signed offset to the incremented pc when a requested flag is the one held, and
changes nothing else; mask 000 is never taken and mask 111 always. -/
def Obligations.BranchEffect : Prop :=
  ∀ (n z p : Bool) (off9 : BitVec 9) (s : State), ∃ t, exec (.br n z p off9) s = .next t ∧
    (((n = true ∧ s.cond = .negative) ∨ (z = true ∧ s.cond = .zero) ∨ (p = true ∧ s.cond = .positive)) →
      (t.pc.toNat : Int) = ((s.pc.toNat : Int) + off9.toInt) % 65536) ∧
    (¬ ((n = true ∧ s.cond = .negative) ∨ (z = true ∧ s.cond = .zero) ∨ (p = true ∧ s.cond = .positive)) →
      t.pc = s.pc) ∧
    (n = false → z = false → p = false → t.pc = s.pc) ∧
    (n = true → z = true → p = true →
      (t.pc.toNat : Int) = ((s.pc.toNat : Int) + off9.toInt) % 65536) ∧
    OnlyTransfer s t []

/-- R150, R151: ADD in both modes is the sum modulo 2^16 of the old values, with the flags of the result
and nothing else changed, the destination being any register, a source included. -/
def Obligations.AddEffect : Prop :=
  (∀ (dr sr1 sr2 : RegIx) (s : State), ∃ t, exec (.addReg dr sr1 sr2) s = .next t ∧
    (t.reg dr).toNat = ((s.reg sr1).toNat + (s.reg sr2).toNat) % 65536 ∧ OnlyResult s t dr) ∧
  (∀ (dr sr1 : RegIx) (imm5 : BitVec 5) (s : State), ∃ t, exec (.addImm dr sr1 imm5) s = .next t ∧
    ((t.reg dr).toNat : Int) = (((s.reg sr1).toNat : Int) + imm5.toInt) % 65536 ∧ OnlyResult s t dr)

/-- R152, R153: AND in both modes, bit by bit; bits 15 to 5 of the immediate are its bit 4. -/
def Obligations.AndEffect : Prop :=
  (∀ (dr sr1 sr2 : RegIx) (s : State), ∃ t, exec (.andReg dr sr1 sr2) s = .next t ∧
    (∀ n < 16, (t.reg dr).getLsbD n = ((s.reg sr1).getLsbD n && (s.reg sr2).getLsbD n)) ∧
    OnlyResult s t dr) ∧
  (∀ (dr sr1 : RegIx) (imm5 : BitVec 5) (s : State), ∃ t, exec (.andImm dr sr1 imm5) s = .next t ∧
    (∀ n < 16, (t.reg dr).getLsbD n = ((s.reg sr1).getLsbD n && imm5.getLsbD (min n 4))) ∧
    OnlyResult s t dr)

/-- R154: NOT gives 0xFFFF minus the source. -/
def Obligations.NotEffect : Prop :=
  ∀ (dr sr : RegIx) (s : State), ∃ t, exec (.not dr sr) s = .next t ∧
    (t.reg dr).toNat = 0xFFFF - (s.reg sr).toNat ∧ OnlyResult s t dr

/-- R163: LEA gives the incremented pc plus the signed offset, sets the flags from it, and touches no
memory and no device. -/
def Obligations.LeaEffect : Prop :=
  ∀ (dr : RegIx) (off9 : BitVec 9) (s : State), ∃ t, exec (.lea dr off9) s = .next t ∧
    ((t.reg dr).toNat : Int) = ((s.pc.toNat : Int) + off9.toInt) % 65536 ∧ OnlyResult s t dr

/-- R160, R162: LD and LDR put the word that MemRead gives at the effective address in the register and
set the flags from it; they complete wherever that read needs no wait. What MemRead gives is
`MemReadAnswersByAddress`; that a device read leaves its cell alone is D11 (log entry 21). -/
def Obligations.LoadEffect : Prop :=
  (∀ (dr : RegIx) (off9 : BitVec 9) (s : State), s.readable (pcRelative s.pc off9) = true →
    ∃ v u t, s.memRead (pcRelative s.pc off9) = .value v u ∧ exec (.ld dr off9) s = .next t ∧
      OnlyLoaded s u t dr v) ∧
  (∀ (dr base : RegIx) (off6 : BitVec 6) (s : State),
    s.readable (baseOffset (s.reg base) off6) = true →
    ∃ v u t, s.memRead (baseOffset (s.reg base) off6) = .value v u ∧ exec (.ldr dr base off6) s = .next t ∧
      OnlyLoaded s u t dr v)

/-- R161: LDI reads the pointer, then the word it points at in the state the first read left, and sets the
flags from the second word only (D11: log entry 21). -/
def Obligations.LoadIndirectEffect : Prop :=
  ∀ (dr : RegIx) (off9 : BitVec 9) (s u : State) (ea : Word),
    s.memRead (pcRelative s.pc off9) = .value ea u → u.readable ea = true →
    ∃ v w t, u.memRead ea = .value v w ∧ exec (.ldi dr off9) s = .next t ∧ OnlyLoaded s w t dr v

/-- R170, R172: ST and STR store the whole register at the effective address, device effects included, and
change no register and no flag (the DDR store is D12: log entry 22). -/
def Obligations.StoreEffect : Prop :=
  (∀ (sr : RegIx) (off9 : BitVec 9) (s : State), ∃ t, exec (.st sr off9) s = .next t ∧
    OnlyStored s s t (pcRelative s.pc off9) (s.reg sr)) ∧
  (∀ (sr base : RegIx) (off6 : BitVec 6) (s : State), ∃ t, exec (.str sr base off6) s = .next t ∧
    OnlyStored s s t (baseOffset (s.reg base) off6) (s.reg sr))

/-- R171: STI reads the pointer first and then stores through it (D11, D12: log entries 21, 22). -/
def Obligations.StoreIndirectEffect : Prop :=
  ∀ (sr : RegIx) (off9 : BitVec 9) (s : State), s.readable (pcRelative s.pc off9) = true →
    ∃ ea u t, s.memRead (pcRelative s.pc off9) = .value ea u ∧ exec (.sti sr off9) s = .next t ∧
      OnlyStored s u t ea (s.reg sr)

/-- R180: JMP sets the pc to the base register, any value, and changes nothing else. -/
def Obligations.JumpEffect : Prop :=
  ∀ (base : RegIx) (s : State), ∃ t, exec (.jmp base) s = .next t ∧ t.pc = s.reg base ∧ OnlyTransfer s t []

/-- R181, R182: JSR and JSRR link through x[7]; JSR's target is the link plus the offset; JSRR's is the base
register read after the link is written, so with base 7 it falls through. -/
def Obligations.SubroutineCallEffect : Prop :=
  (∀ (off11 : BitVec 11) (s : State), ∃ t, exec (.jsr off11) s = .next t ∧ t.reg 7 = s.pc ∧
    (t.pc.toNat : Int) = ((s.pc.toNat : Int) + off11.toInt) % 65536 ∧ OnlyTransfer s t [7]) ∧
  (∀ (base : RegIx) (s : State), ∃ t, exec (.jsrr base) s = .next t ∧ t.reg 7 = s.pc ∧
    t.pc = (if base = 7 then s.pc else s.reg base) ∧ OnlyTransfer s t [7])

/-- R190, R191, R207: RTI, RES and a TRAP with an undefined vector complete and change nothing. The no-op of
an undefined vector is the spec's own taking of a source that also calls it unspecified (C4, U1: log entry
30). -/
def Obligations.ReservedInstructionsDoNothing : Prop :=
  ∀ (i : Instr) (s : State),
    (i = .rti ∨ i = .res ∨ (∃ v : Byte, (v.toNat < 0x20 ∨ 0x25 < v.toNat) ∧ i = .trapOther v)) →
    ∃ t, exec i s = .next t ∧ t.pc = s.pc ∧ OnlyTransfer s t []

/-- R201: GETC puts the next character in x[0] and touches neither the flags nor the output. The value is
NextChar's: zero-extended by D8, the sentinel by D9; that no service writes x[7] or memory is D13 (log
entries 7, 20, 23). -/
def Obligations.GetcEffect : Prop :=
  ∀ s : State, s.inputReady = true →
    ∃ v u t, s.nextChar = .value v u ∧ exec .trapGetc s = .next t ∧ t.reg 0 = v ∧ t.cond = s.cond ∧
      t.pc = s.pc ∧ KeepsRegs s t [0] ∧ KeepsCells s t ∧ KeepsControl s t ∧ t.inp = u.inp ∧
      t.trace = u.trace ∧ t.stage = .fetch

/-- R202: OUT emits the low byte of x[0], and no register and no cell changes, M[0xFE06] included. -/
def Obligations.OutEffect : Prop :=
  ∀ s : State, ∃ t, exec .trapOut s = .next t ∧ t.trace = s.trace ++ [.out ((s.reg 0).setWidth 8)] ∧
    t.out = s.out ++ [(s.reg 0).setWidth 8] ∧ t.inp = s.inp ∧ t.pc = s.pc ∧ t.cond = s.cond ∧
    KeepsRegs s t [] ∧ KeepsCells s t ∧ KeepsControl s t ∧ t.stage = .fetch

/-- R203, R209: PUTS emits the low byte of each word from M[x[0]] up to the first zero word or the end of
memory, without wrapping, and changes nothing else. Low bytes are D14, the direct, bounded walk D15, and that
a service leaves registers and memory alone is D13 (log entries 24, 25, 23). -/
def Obligations.PutsEffect : Prop :=
  ∀ s : State, ∃ t n, exec .trapPuts s = .next t ∧ (s.reg 0).toNat + n ≤ 65536 ∧
    (∀ k < n, s.cell (BitVec.ofNat 16 ((s.reg 0).toNat + k)) ≠ 0#16) ∧
    ((s.reg 0).toNat + n = 65536 ∨ s.cell (BitVec.ofNat 16 ((s.reg 0).toNat + n)) = 0#16) ∧
    t.trace = s.trace ++ (List.range n).map (fun k =>
      .out ((s.cell (BitVec.ofNat 16 ((s.reg 0).toNat + k))).setWidth 8)) ∧
    t.inp = s.inp ∧ t.pc = s.pc ∧ t.cond = s.cond ∧ KeepsRegs s t [] ∧ KeepsCells s t ∧
    KeepsControl s t ∧ t.stage = .fetch

/-- R205, R209: PUTSP walks in the same way and emits of each word the low byte always, then the high byte
if it is not zero, and changes nothing else. The walk is D15; that a service leaves registers and memory alone
is D13 (log entries 25, 23). -/
def Obligations.PutspEffect : Prop :=
  ∀ s : State, ∃ t n, exec .trapPutsp s = .next t ∧ (s.reg 0).toNat + n ≤ 65536 ∧
    (∀ k < n, s.cell (BitVec.ofNat 16 ((s.reg 0).toNat + k)) ≠ 0#16) ∧
    ((s.reg 0).toNat + n = 65536 ∨ s.cell (BitVec.ofNat 16 ((s.reg 0).toNat + n)) = 0#16) ∧
    t.out = s.out ++ (List.range n).flatMap (fun k =>
      let w := s.cell (BitVec.ofNat 16 ((s.reg 0).toNat + k))
      w.extractLsb' 0 8 :: if w.extractLsb' 8 8 = 0x00#8 then [] else [w.extractLsb' 8 8]) ∧
    t.trace = s.trace ++ (t.out.drop s.out.length).map .out ∧
    t.inp = s.inp ∧ t.pc = s.pc ∧ t.cond = s.cond ∧ KeepsRegs s t [] ∧ KeepsCells s t ∧
    KeepsControl s t ∧ t.stage = .fetch

/-- R204, R123: IN emits its prompt, reads, and echoes what it read, in that order; without input it waits
with its prompt out, and going on from there it does not prompt again. The text is a parameter (D16), the
echo at end of input D18, the wait D19; that the service writes no other register and no memory is D13 (log
entries 9, 26, 15, 23). -/
def Obligations.InPromptsReadsEchoes : Prop :=
  (∀ s : State, s.inputReady = true → ∃ v u ev t, s.nextChar = .value v u ∧ u.trace = s.trace ++ [ev] ∧
    exec .trapIn s = .next t ∧ t.reg 0 = v ∧
    t.trace = s.trace ++ (if s.stage = .prompted then [] else s.params.inPrompt.map .out) ++
      [ev, .out (v.setWidth 8)] ∧
    t.inp = u.inp ∧ t.pc = s.pc ∧ t.cond = s.cond ∧ KeepsRegs s t [0] ∧ KeepsCells s t ∧
    KeepsControl s t ∧ t.stage = .fetch) ∧
  (∀ s : State, s.inputReady = false → exec .trapIn s = .next { s with
    trace := s.trace ++ (if s.stage = .prompted then [] else s.params.inPrompt.map .out)
    inp := s.inp.turn
    stage := .prompted })

/-- R206: HALT clears `running`; the pc, the registers, the flags, memory with M[0xFFFE] and the streams
stay, and nothing is emitted. That a TRAP writes no x[7], no other register and no memory is D13 (R208: log
entry 23). -/
def Obligations.HaltEffect : Prop :=
  ∀ s : State, ∃ t, exec .trapHalt s = .next t ∧ t.running = false ∧ t.pc = s.pc ∧ t.cond = s.cond ∧
    KeepsRegs s t [] ∧ KeepsCells s t ∧ KeepsStreams s t ∧ t.ir = s.ir ∧ t.params = s.params ∧
    t.stage = .fetch

/-! ## The cycle -/

/-- R120: a cycle begins only when the core runs; it fetches through MemRead, advances the pc by 1 modulo
2^16 and executes the decoded word with the advanced pc. The second clause is the first at an address whose
reads no device answers (R52); that at 0xFE06 and 0xFFFE the fetched word is the cell is the spec's own reading
(R56, 90_conflicts.md C3). A HALTED core begins no cycle and keeps its state (R122, R245). -/
def Obligations.StepRunsTheDecodedInstruction : Prop :=
  (∀ (s u : State) (w : Word), s.running = true → s.stage = .fetch → s.memRead s.pc = .value w u →
    step s = exec (decode w) { u with ir := w, pc := s.pc + 1 }) ∧
  (∀ s : State, s.running = true → s.stage = .fetch →
    s.pc ≠ 0xFE00#16 → s.pc ≠ 0xFE02#16 → s.pc ≠ 0xFE04#16 →
    step s = exec (decode (s.cell s.pc)) { s with ir := s.cell s.pc, pc := s.pc + 1 }) ∧
  (∀ s t : State, s.running = false → step s = .next t → t = s)

/-- R123: a fetch that waits executes nothing and advances nothing, only the environment having acted; a cycle
that waits later goes on with the latched word, the pc already advanced. That going on means executing the
latched instruction again is the model's way (log entry 15). -/
def Obligations.WaitingCyclesGoOn : Prop :=
  (∀ s u : State, s.running = true → s.stage = .fetch → s.memRead s.pc = .waits u →
    step s = .next u ∧ u = { s with inp := s.inp.turn }) ∧
  (∀ s : State, s.running = true → s.stage ≠ .fetch → step s = exec (decode s.ir) s)

/-- R190, R191, R141 (V-B2, V-R1 to V-R4): a whole cycle on an RTI, a RES or a mask-000 BR word, at an address
whose reads no device answers, only latches the word and advances the pc. The opcode numbers and the place of
the BR mask are PRESUMED (log entries 10, 12); that the other bits of RTI and RES are ignored is D4 (log entry
13); that 0xFE06 and 0xFFFE are such addresses is the spec's own reading (R56, C3). -/
def Obligations.NoOpCycleOnlyAdvances : Prop :=
  ∀ (s : State), s.running = true → s.stage = .fetch → readIntercepted s.pc = false →
    (s.cell s.pc &&& 0xF000#16 = 0x8000#16 ∨ s.cell s.pc &&& 0xF000#16 = 0xD000#16 ∨
      s.cell s.pc &&& 0xFE00#16 = 0x0000#16) →
    step s = .next { s with ir := s.cell s.pc, pc := s.pc + 1 }

/-- The step after `withFetchWord` runs exactly that word's instruction, from every state (log entry 29:
the model's own convention). -/
def Obligations.PlacedWordRunsNext : Prop :=
  ∀ (s : State) (w : Nat), w < 65536 → ∃ u : State,
    step (s.withFetchWord 16 w) = exec (decode (BitVec.ofNat 16 w)) u ∧
    u.regs = s.regs ∧ u.cond = s.cond ∧ u.inp = s.inp ∧ u.trace = s.trace ∧ u.params = s.params ∧
    u.running = true ∧ u.stage = .fetch ∧ u.ir = BitVec.ofNat 16 w ∧
    u.cell (u.pc - 1) = BitVec.ofNat 16 w ∧ (∀ a : Word, a ≠ u.pc - 1 → u.cell a = s.cell a) ∧
    (readIntercepted s.pc = false → u.pc = s.pc + 1)

/-- R71: a word stored where the next instruction lies, at an address whose reads no device answers, is the
next instruction fetched, in the very next cycle. Such an address can be 0xFE06, where that the word is stored
is D12 (log entry 22), or 0xFFFE; that a read gives the cell at these two is the spec's own reading (R56, C3). -/
def Obligations.StoreIsSeenByTheNextFetch : Prop :=
  ∀ (s u t : State) (i : Instr) (v : Word), s.issued = some (i, u) → u.storeOf i = some (u.pc, v) →
    step s = .next t → t.running = true → readIntercepted u.pc = false →
    t.pc = u.pc ∧ step t = exec (decode v) { t with ir := v, pc := t.pc + 1 }

/-- R240: no instruction and no step, from any state, raises anything: it ends in no fault and in no
refusal. -/
def Obligations.NothingRaises : Prop :=
  (∀ (i : Instr) (s : State), (∀ f, exec i s ≠ .fault f) ∧ ∀ r, exec i s ≠ .refused r) ∧
  ∀ s : State, (∀ f, step s ≠ .fault f) ∧ ∀ r, step s ≠ .refused r

/-- R245: RUNNING goes to HALTED in a cycle exactly when it ran HALT or stored to MCR a word with bit 15
clear; HALTED is terminal, with all state unchanged; and reset is RUNNING. -/
def Obligations.HaltedIsTerminal : Prop :=
  (∀ (p : ResetParams) (inp : InputStream), (State.resetWith p inp).running = true) ∧
  (∀ s t : State, s.running = true → step s = .next t →
    (t.running = false ↔ ∃ i u, s.issued = some (i, u) ∧
      (i = .trapHalt ∨ ∃ v : Word, u.storeOf i = some (0xFFFE#16, v) ∧ v.getLsbD 15 = false))) ∧
  (∀ (s t : State) (k : Nat), s.running = false → Host.Core.run Sys2Proof.core k s = .next t → t = s)

/-! ## Waiting for input -/

/-- R123: an instruction other than IN that waits has changed nothing: only the environment has acted, and
it left nothing to read. The wait is D19 (log entries 15, 16). -/
def Obligations.WaitingHasNoEffect : Prop :=
  ∀ (i : Instr) (s t : State), i ≠ .trapIn → exec i s = .next t → t.stage ≠ .fetch →
    t = { s with inp := s.inp.turn, stage := .waiting } ∧ t.inp.queue = [] ∧ t.inp.eof = false

/-- R292: an instruction that does not read input completes; one that does completes as soon as a character
or the end of input is there, for every value of the sentinel (log entry 7); and whatever does not read the
stream in this state completes, whatever reads it with nothing there does not. Both are next states (D19, D23:
log entries 14 to 16). -/
def Obligations.InstructionsCompleteGivenInput : Prop :=
  (∀ (i : Instr) (s : State), i.mayWait = false ∨ s.inputReady = true →
    ∃ t, exec i s = .next t ∧ t.stage = .fetch) ∧
  (∀ (i : Instr) (s : State), ∃ t, exec i s = .next t ∧
    (t.stage = .fetch ↔ (s.awaitsInput i = true → s.inputReady = true)))

/-- R123, R287: with no input there and none to come, a waiting core stays in that wait, still RUNNING. The wait
is D19 (log entry 16); that the environment's actions can come to an end is the model's finite list (log entry
33), and the hypothesis says that none is left. -/
def Obligations.WaitWithoutInputNeverEnds : Prop :=
  ∀ (s : State) (k : Nat), s.inv = true → s.stage ≠ .fetch → s.inp.env = [] →
    Host.Core.run Sys2Proof.core k s = .next s ∧ s.running = true

/-- R244, R36: when a character arrives, a waiting cycle completes in the next step and consumes it. -/
def Obligations.ArrivalEndsTheWait : Prop :=
  ∀ (s : State) (c : Byte) (rest : List EnvAct), s.inv = true → s.stage ≠ .fetch →
    s.inp.env = .key c :: .pass :: rest →
    ∃ t, step s = .next t ∧ t.stage = .fetch ∧ t.inp.queue = [] ∧ t.inp.env = rest ∧
      ∃ more, t.trace = s.trace ++ .inChar c :: more

/-! ## Rules over the whole machine -/

/-- Every step keeps the invariant: memory stays in its canonical form, and the core waits only in an
instruction that reads input, running, with nothing to read. -/
def Obligations.StepKeepsTheInvariant : Prop :=
  ∀ s t : State, s.inv = true → step s = .next t → t.inv = true

/-- R22: an instruction writes no register but the one its DR field names, x[7] as a link, or x[0] as a
service's result. That TRAP writes no other is D13 (log entry 23). -/
def Obligations.RegistersWrittenOnlyAsNamed : Prop :=
  ∀ (i : Instr) (s t : State), exec i s = .next t → KeepsRegs s t i.writtenRegs

/-- R26, R125: only ADD, AND, NOT, LD, LDI, LDR and LEA change the flags; each of them, when it completes,
leaves them describing the value it wrote to its one destination register; and only BR reads them: any other
instruction does the same whatever the flags hold. -/
def Obligations.FlagsWrittenBySevenReadByBranch : Prop :=
  (∀ (i : Instr) (s t : State), exec i s = .next t → i.opcode.setsFlags = false → t.cond = s.cond) ∧
  (∀ (i : Instr) (s t : State), exec i s = .next t → i.opcode.setsFlags = true → t.stage = .fetch →
    ∃ dr, i.writtenRegs = [dr] ∧ FlagsSay t (t.reg dr)) ∧
  (∀ (i : Instr) (s t : State) (c : Flag), i.opcode ≠ .br → exec i s = .next t →
    ∃ u, exec i { s with cond := c } = .next u ∧ { u with cond := t.cond } = t)

/-- R24: only BR, JMP, JSR and JSRR write the pc after its increment; every other instruction leaves the
incremented value, and the increment of 0xFFFF gives 0x0000. -/
def Obligations.PcWrittenOnlyByTransfers : Prop :=
  (∀ (i : Instr) (s t : State), exec i s = .next t → i.opcode.writesPc = false → t.pc = s.pc) ∧
  (∀ s t : State, ∀ i u, s.issued = some (i, u) → s.stage = .fetch → i.opcode.writesPc = false →
    step s = .next t → t.pc.toNat = (s.pc.toNat + 1) % 65536)

/-- R57, R208: only ST, STI and STR change memory, and only the word `storeOf` names. That reads and trap
services leave it alone is D11 and D13 (log entries 21, 23). -/
def Obligations.MemoryWrittenOnlyByStores : Prop :=
  ∀ (i : Instr) (s t : State) (a : Word), exec i s = .next t →
    (∀ v, s.storeOf i ≠ some (a, v)) → t.cell a = s.cell a

/-- R37, R38: the trace only grows, so no emitted byte is taken back, and the parameters never change. -/
def Obligations.TraceOnlyGrows : Prop :=
  ∀ s t : State, step s = .next t →
    (∃ new, t.trace = s.trace ++ new) ∧ (∃ bytes, t.out = s.out ++ bytes) ∧ t.params = s.params

/-- R33, R38: the core takes bytes only from the head of IN, each one recorded as an In event in order;
what the environment added is at the tail; and EOF is never cleared (D8: log entry 14). -/
def Obligations.InputIsConsumedInOrder : Prop :=
  ∀ s t : State, step s = .next t → ∃ new arrived, t.trace = s.trace ++ new ∧
    s.inp.queue ++ arrived =
      new.filterMap Event.inByte ++ t.inp.queue ∧
    (s.inp.eof = true → arrived = [] ∧ t.inp.eof = true)

/-- Noninterference of the environment: an instruction that does not read input does the same whatever the
input stream holds (R32, R62, R250). That PUTS and PUTSP are such instructions wherever their string lies, the
device addresses included, is the spec's decision D15 (R209: log entry 25). -/
def Obligations.InputSeenOnlyByReaders : Prop :=
  ∀ (i : Instr) (s t : State) (inp : InputStream), i.mayWait = false → exec i s = .next t →
    exec i { s with inp := inp } = .next { t with inp := inp }

/-! ## The first attempt to read with nothing there -/

/-- R123, R292: with nothing to read, LD and LDR at 0xFE02, LDI at either of its reads, STI at its pointer, GETC,
and a fetch from 0xFE02 do not complete and have no effect: only the environment has acted. A read that is not
`readable` is one of 0xFE02 with nothing there. That the wait is a next state is D19 (log entries 15, 16); IN,
which has its prompt out by then, is in `InPromptsReadsEchoes`. -/
def Obligations.ReadersWaitWithoutInput : Prop :=
  (∀ (dr : RegIx) (off9 : BitVec 9) (s : State), s.readable (pcRelative s.pc off9) = false →
    exec (.ld dr off9) s = .next { s with inp := s.inp.turn, stage := .waiting }) ∧
  (∀ (dr base : RegIx) (off6 : BitVec 6) (s : State), s.readable (baseOffset (s.reg base) off6) = false →
    exec (.ldr dr base off6) s = .next { s with inp := s.inp.turn, stage := .waiting }) ∧
  (∀ (dr : RegIx) (off9 : BitVec 9) (s : State), s.readable (pcRelative s.pc off9) = false →
    exec (.ldi dr off9) s = .next { s with inp := s.inp.turn, stage := .waiting }) ∧
  (∀ (dr : RegIx) (off9 : BitVec 9) (s u : State) (ea : Word),
    s.memRead (pcRelative s.pc off9) = .value ea u → u.readable ea = false →
    exec (.ldi dr off9) s = .next { s with inp := s.inp.turn, stage := .waiting }) ∧
  (∀ (sr : RegIx) (off9 : BitVec 9) (s : State), s.readable (pcRelative s.pc off9) = false →
    exec (.sti sr off9) s = .next { s with inp := s.inp.turn, stage := .waiting }) ∧
  (∀ s : State, s.inputReady = false →
    exec .trapGetc s = .next { s with inp := s.inp.turn, stage := .waiting }) ∧
  (∀ s : State, s.running = true → s.stage = .fetch → s.readable s.pc = false →
    step s = .next { s with inp := s.inp.turn }) ∧
  (∀ (s : State) (a : Word), s.readable a = false ↔ a = 0xFE02#16 ∧ s.inp.turn.queue = [] ∧ s.inp.turn.eof = false)
end

