-- ==== Sys2Proof/Laws/Decode.lean ====
section
/-! SUPPORT. The laws of fields: what a field of an assembled word reads as, and what a masked word says
of its fields. -/

namespace Sys2Proof

/-! ## Fields of assembled words -/

theorem field_or (x y : Word) (lo k : Nat) :
    (x ||| y).extractLsb' lo k = x.extractLsb' lo k ||| y.extractLsb' lo k := by
  ext i hi
  simp

/-- A field read where it was placed. -/
theorem field_place_same {k : Nat} (f : BitVec k) (lo : Nat) (h : lo + k ≤ 16) :
    (place f lo).extractLsb' lo k = f := by
  ext i hi
  have h1 : lo + i < 16 := by omega
  simp [place, h1, hi]

/-- A field read wholly below where one was placed. -/
theorem field_place_below {k : Nat} (f : BitVec k) {lo lo' k' : Nat} (h : lo' + k' ≤ lo) :
    (place f lo).extractLsb' lo' k' = 0#k' := by
  ext i hi
  have h1 : lo' + i < lo := by omega
  simp [place, h1]

/-- A field read wholly above where one was placed. -/
theorem field_place_above {k : Nat} (f : BitVec k) {lo lo' k' : Nat} (h : lo + k ≤ lo') :
    (place f lo).extractLsb' lo' k' = 0#k' := by
  ext i hi
  have h1 : k ≤ lo' + i - lo := by omega
  simp [place, BitVec.getLsbD_of_ge f _ h1]

/-- A bit is a field of width 1. -/
theorem bit_eq_field (w : Word) (n : Nat) : BitVec.ofBool (w.getLsbD n) = w.extractLsb' n 1 := by
  ext i hi
  have : i = 0 := by omega
  subst this
  simp

theorem bit_of_field {w : Word} {n : Nat} {b : Bool} (h : w.extractLsb' n 1 = BitVec.ofBool b) :
    w.getLsbD n = b := by
  have := (bit_eq_field w n).trans h
  revert this
  cases w.getLsbD n <;> cases b <;> decide

@[simp] theorem regBits_toFin (r : RegIx) : (regBits r).toFin = r := by revert r; decide

/-- Each bit of a placed field. -/
theorem getLsbD_place {k : Nat} (f : BitVec k) (lo i : Nat) :
    (place f lo).getLsbD i = (decide (i < 16) && decide (lo ≤ i) && f.getLsbD (i - lo)) := by
  unfold place
  rw [BitVec.getLsbD_shiftLeft, BitVec.getLsbD_setWidth]
  by_cases h1 : i < 16 <;> by_cases h2 : lo ≤ i
  · have h3 : i - lo < 16 := by omega
    have h4 : ¬ i < lo := by omega
    simp [h1, h2, h3, h4]
  · simp [h2]
  · simp [h1]
  · simp [h1]

/-- The three bits of a register field. -/
theorem regBits_regField (w : Word) (lo : Nat) : regBits (regField w lo) = w.extractLsb' lo 3 := by
  apply BitVec.eq_of_toNat_eq
  simp [regBits, regField]

/-! ## Fields of masked words -/

/-- Where a mask is all ones, a masked word tells the field. -/
theorem field_of_masked {w mask val : Word} (h : w &&& mask = val) (lo k : Nat)
    (hm : mask.extractLsb' lo k = BitVec.allOnes k) : w.extractLsb' lo k = val.extractLsb' lo k := by
  have e : (w &&& mask).extractLsb' lo k = w.extractLsb' lo k &&& mask.extractLsb' lo k := by
    ext i hi
    simp
  rw [← h, e, hm, BitVec.and_allOnes]

/-! ## Opcodes and vectors -/

@[simp] theorem Opcode.ofBits_bits (o : Opcode) : Opcode.ofBits o.bits = o := by cases o <;> rfl

@[simp] theorem Opcode.bits_ofBits (b : BitVec 4) : (Opcode.ofBits b).bits = b := by revert b; decide

/-- The decoder's terms satisfy the check. -/
theorem decodeTrap_wf (v : Byte) : (decodeTrap v).wf = true := by revert v; decide

theorem decodeTrap_of_undefined {v : Byte} (h : (Instr.trapOther v).wf = true) :
    decodeTrap v = .trapOther v := by revert v; decide

/-- A decoded instruction belongs to the opcode its word's top four bits name. -/
theorem decode_opcode (w : Word) : (decode w).opcode = Opcode.ofBits (opcodeField w) := by
  have htrap : ∀ v, (decodeTrap v).opcode = .trap := by decide
  unfold decode
  cases Opcode.ofBits (opcodeField w) <;> dsimp only <;> first | rfl | (split <;> rfl) | exact htrap _

/-- Every decoded instruction is well-formed. -/
theorem decode_wf (w : Word) : (decode w).wf = true := by
  unfold decode
  cases Opcode.ofBits (opcodeField w) <;> dsimp only <;>
    first | rfl | (split <;> rfl) | exact decodeTrap_wf _

/-! ## The opcode field of an assembled word -/

/-- The opcode field of a word whose other fields lie below bit 12. -/
theorem opcodeField_or {op : BitVec 4} {rest : Word} (h : rest.extractLsb' 12 4 = 0#4) :
    opcodeField (place op 12 ||| rest) = op := by
  rw [opcodeField, field_or, field_place_same op 12 (by omega), h]
  simp

theorem opcodeField_encodePc9 (op : Opcode) (r : RegIx) (off : BitVec 9) : opcodeField (encodePc9 op r off) = op.bits := by
  unfold encodePc9
  rw [BitVec.or_assoc]
  exact opcodeField_or (by simp [field_or, field_place_above])

theorem opcodeField_encodeOpr (op : Opcode) (dr sr1 sr2 : RegIx) : opcodeField (encodeOpr op dr sr1 sr2) = op.bits := by
  unfold encodeOpr
  rw [BitVec.or_assoc, BitVec.or_assoc]
  exact opcodeField_or (by simp [field_or, field_place_above])

theorem opcodeField_encodeOpi (op : Opcode) (dr sr1 : RegIx) (imm : BitVec 5) :
    opcodeField (encodeOpi op dr sr1 imm) = op.bits := by
  unfold encodeOpi
  rw [BitVec.or_assoc, BitVec.or_assoc, BitVec.or_assoc]
  exact opcodeField_or (by simp [field_or, field_place_above])

theorem opcodeField_encodeB6 (op : Opcode) (r base : RegIx) (off : BitVec 6) :
    opcodeField (encodeB6 op r base off) = op.bits := by
  unfold encodeB6
  rw [BitVec.or_assoc, BitVec.or_assoc]
  exact opcodeField_or (by simp [field_or, field_place_above])

theorem opcodeField_encodeBase (op : Opcode) (b : RegIx) : opcodeField (encodeBase op b) = op.bits :=
  opcodeField_or (by simp [field_place_above])

theorem opcodeField_encodeTrap (v : Byte) : opcodeField (encodeTrap v) = Opcode.trap.bits :=
  opcodeField_or (by simp [field_place_above])

theorem opcodeField_place (op : Opcode) : opcodeField (place op.bits 12) = op.bits :=
  field_place_same op.bits 12 (by omega)

end Sys2Proof
end

