-- ==== Sys2Proof/Laws/Memory.lean ====
section
/-! SUPPORT. The laws of the backing array: read after write, the canonical form, and the string walk. -/

namespace Sys2Proof

/-! ## Read after write -/

@[simp] theorem Memory.read_nil (a : Nat) : Memory.read [] a = Memory.fill := rfl

theorem Memory.read_cons (c : MemCell) (m : Memory) (a : Nat) :
    Memory.read (c :: m) a = if c.1 = a then c.2 else Memory.read m a := rfl

theorem Memory.read_erase_same (m : Memory) (a : Nat) : (m.erase a).read a = Memory.fill := by
  induction m with
  | nil => rfl
  | cons c m ih =>
    by_cases h : c.1 = a
    · simpa [Memory.erase, h] using ih
    · simpa [Memory.erase, h, Memory.read_cons] using ih

theorem Memory.read_erase_other (m : Memory) {a b : Nat} (hab : b ≠ a) : (m.erase a).read b = m.read b := by
  induction m with
  | nil => rfl
  | cons c m ih =>
    by_cases h : c.1 = a
    · have hb : c.1 ≠ b := fun e => hab (e.symm.trans h)
      simpa [Memory.erase, h, Memory.read_cons, hb, hab.symm] using ih
    · have ih' : Memory.read (List.filter (fun c => c.1 != a) m) b = Memory.read m b := ih
      simp [Memory.erase, h, Memory.read_cons, ih']

theorem Memory.read_insert_same (m : Memory) (a : Nat) (v : Word) (hm : ∀ c ∈ m, c.1 ≠ a) :
    (m.insert a v).read a = v := by
  induction m with
  | nil => simp [Memory.insert, Memory.read_cons]
  | cons c m ih =>
    unfold Memory.insert
    split
    · simp [Memory.read_cons]
    · rw [Memory.read_cons, if_neg (hm c (by simp)), ih (fun d hd => hm d (by simp [hd]))]

theorem Memory.read_insert_other (m : Memory) {a b : Nat} (v : Word) (hab : b ≠ a) :
    (m.insert a v).read b = m.read b := by
  induction m with
  | nil => simp [Memory.insert, Memory.read_cons, hab.symm]
  | cons c m ih =>
    unfold Memory.insert
    split
    · simp [Memory.read_cons, hab.symm]
    · rw [Memory.read_cons, Memory.read_cons, ih]

theorem Memory.mem_erase (m : Memory) (a : Nat) : ∀ c ∈ m.erase a, c.1 ≠ a := by
  intro c hc
  simpa using (List.mem_filter.mp hc).2

@[simp] theorem Memory.read_write_same (m : Memory) (a : Nat) (v : Word) : (m.write a v).read a = v := by
  unfold Memory.write
  split
  · next h => rw [Memory.read_erase_same, h]
  · exact Memory.read_insert_same _ _ _ (Memory.mem_erase m a)

theorem Memory.read_write_other (m : Memory) {a b : Nat} (v : Word) (hab : b ≠ a) :
    (m.write a v).read b = m.read b := by
  unfold Memory.write
  split
  · exact Memory.read_erase_other m hab
  · rw [Memory.read_insert_other _ _ hab, Memory.read_erase_other m hab]

/-! ## Blocks of words -/

theorem Memory.read_writeBlock_below (ws : List Word) (m : Memory) {a b : Nat} (h : b < a) :
    (m.writeBlock a ws).read b = m.read b := by
  induction ws generalizing m a with
  | nil => rfl
  | cons w ws ih =>
    rw [Memory.writeBlock, ih _ (by omega), Memory.read_write_other _ _ (by omega)]

theorem Memory.read_writeBlock_above (ws : List Word) (m : Memory) {a b : Nat} (h : a + ws.length ≤ b) :
    (m.writeBlock a ws).read b = m.read b := by
  induction ws generalizing m a with
  | nil => rfl
  | cons w ws ih =>
    simp only [List.length_cons] at h
    rw [Memory.writeBlock, ih _ (by omega), Memory.read_write_other _ _ (by omega)]

theorem Memory.read_writeBlock_inside (ws : List Word) (m : Memory) (a k : Nat) (h : k < ws.length) :
    (m.writeBlock a ws).read (a + k) = ws[k] := by
  induction ws generalizing m a k with
  | nil => simp at h
  | cons w ws ih =>
    rw [Memory.writeBlock]
    cases k with
    | zero => simp [Memory.read_writeBlock_below ws (m.write a w) (Nat.lt_succ_self a)]
    | succ k =>
      have := ih (m.write a w) (a + 1) k (by simpa using h)
      rw [show a + (k + 1) = a + 1 + k by omega, this]
      simp

/-! ## The canonical form -/

theorem Memory.wfFrom_cons (lo : Nat) (c : MemCell) (m : Memory) :
    Memory.wfFrom lo (c :: m) = true ↔
      lo ≤ c.1 ∧ c.1 < memSize ∧ c.2 ≠ Memory.fill ∧ Memory.wfFrom (c.1 + 1) m = true := by
  simp [Memory.wfFrom, and_assoc]

theorem Memory.wfFrom_mono {lo lo' : Nat} (h : lo' ≤ lo) (m : Memory) (hm : Memory.wfFrom lo m = true) :
    Memory.wfFrom lo' m = true := by
  cases m with
  | nil => rfl
  | cons c m =>
    rw [Memory.wfFrom_cons] at hm ⊢
    exact ⟨by omega, hm.2⟩

theorem Memory.wfFrom_erase (a : Nat) (m : Memory) (lo : Nat) (hm : Memory.wfFrom lo m = true) :
    Memory.wfFrom lo (m.erase a) = true := by
  induction m generalizing lo with
  | nil => rfl
  | cons c m ih =>
    rw [Memory.wfFrom_cons] at hm
    obtain ⟨h1, h2, h3, h4⟩ := hm
    by_cases h : c.1 = a
    · have : Memory.erase (c :: m) a = Memory.erase m a := by simp [Memory.erase, h]
      rw [this]
      exact ih _ (Memory.wfFrom_mono (by omega) m h4)
    · have : Memory.erase (c :: m) a = c :: Memory.erase m a := by simp [Memory.erase, h]
      rw [this, Memory.wfFrom_cons]
      exact ⟨h1, h2, h3, ih _ h4⟩

theorem Memory.wfFrom_insert {a : Nat} {v : Word} (ha : a < memSize) (hv : v ≠ Memory.fill) (m : Memory)
    (lo : Nat) (hlo : lo ≤ a) (hm : Memory.wfFrom lo m = true) (hne : ∀ c ∈ m, c.1 ≠ a) :
    Memory.wfFrom lo (m.insert a v) = true := by
  induction m generalizing lo with
  | nil =>
    rw [Memory.insert, Memory.wfFrom_cons]
    exact ⟨hlo, ha, hv, rfl⟩
  | cons c m ih =>
    rw [Memory.wfFrom_cons] at hm
    obtain ⟨h1, h2, h3, h4⟩ := hm
    have hc : c.1 ≠ a := hne c (by simp)
    unfold Memory.insert
    split
    · rw [Memory.wfFrom_cons, Memory.wfFrom_cons]
      exact ⟨hlo, ha, hv, by simp only; omega, h2, h3, h4⟩
    · rw [Memory.wfFrom_cons]
      exact ⟨h1, h2, h3, ih _ (by omega) h4 (fun d hd => hne d (by simp [hd]))⟩

theorem Memory.wf_write (m : Memory) {a : Nat} (v : Word) (ha : a < memSize) (hm : m.wf = true) :
    (m.write a v).wf = true := by
  unfold Memory.write Memory.wf
  split
  · exact Memory.wfFrom_erase a m 0 hm
  · next hv =>
    exact Memory.wfFrom_insert ha hv _ 0 (Nat.zero_le a) (Memory.wfFrom_erase a m 0 hm) (Memory.mem_erase m a)

theorem Memory.wf_writeBlock (ws : List Word) (m : Memory) (a : Nat) (h : a + ws.length ≤ memSize)
    (hm : m.wf = true) : (m.writeBlock a ws).wf = true := by
  induction ws generalizing m a with
  | nil => exact hm
  | cons w ws ih =>
    simp only [List.length_cons] at h
    exact ih _ _ (by omega) (Memory.wf_write m w (by omega) hm)

theorem Memory.read_below {m : Memory} {lo a : Nat} (hm : Memory.wfFrom lo m = true) (h : a < lo) :
    m.read a = Memory.fill := by
  induction m generalizing lo with
  | nil => rfl
  | cons c m ih =>
    rw [Memory.wfFrom_cons] at hm
    rw [Memory.read_cons, if_neg (by omega), ih hm.2.2.2 (by omega)]

/-- Equal memories are equal lists: two canonical lists that read alike are one list. -/
theorem Memory.wf_ext {m n : Memory} (hm : m.wf = true) (hn : n.wf = true)
    (h : ∀ a, m.read a = n.read a) : m = n := by
  have go : ∀ (m n : Memory) (lo : Nat), Memory.wfFrom lo m = true → Memory.wfFrom lo n = true →
      (∀ a, m.read a = n.read a) → m = n := by
    intro m
    induction m with
    | nil =>
      intro n lo _ hn h
      cases n with
      | nil => rfl
      | cons d n =>
        rw [Memory.wfFrom_cons] at hn
        have := h d.1
        simp [Memory.read_cons] at this
        exact absurd this.symm hn.2.2.1
    | cons c m ih =>
      intro n lo hm hn h
      rw [Memory.wfFrom_cons] at hm
      obtain ⟨-, -, h3, h4⟩ := hm
      cases n with
      | nil =>
        have := h c.1
        simp [Memory.read_cons] at this
        exact absurd this h3
      | cons d n =>
        rw [Memory.wfFrom_cons] at hn
        obtain ⟨-, -, k3, k4⟩ := hn
        have key : c.1 = d.1 := by
          rcases Nat.lt_trichotomy c.1 d.1 with hlt | heq | hgt
          · have := h c.1
            rw [Memory.read_cons, if_pos rfl, Memory.read_cons, if_neg (by omega),
              Memory.read_below k4 (by omega)] at this
            exact absurd this h3
          · exact heq
          · have := h d.1
            rw [Memory.read_cons, if_neg (by omega), Memory.read_cons, if_pos rfl,
              Memory.read_below h4 (by omega)] at this
            exact absurd this.symm k3
        have hval : c.2 = d.2 := by
          have := h c.1
          rwa [Memory.read_cons, if_pos rfl, Memory.read_cons, if_pos key.symm] at this
        have htail : m = n := by
          refine ih n _ h4 (key ▸ k4) (fun a => ?_)
          by_cases ha : c.1 = a
          · rw [Memory.read_below h4 (by omega), Memory.read_below k4 (by omega)]
          · have := h a
            rwa [Memory.read_cons, if_neg ha, Memory.read_cons, if_neg (by omega)] at this
        rw [htail, Prod.ext key hval]
  exact go m n 0 hm hn h

/-! ## The string walk -/

theorem Memory.walk_length (m : Memory) (fuel a : Nat) : (m.walk fuel a).length ≤ fuel := by
  induction fuel generalizing a with
  | zero => simp [Memory.walk]
  | succ n ih =>
    unfold Memory.walk
    split
    · simp
    · simpa using ih (a + 1)

theorem Memory.walk_getElem (m : Memory) (fuel a k : Nat) (h : k < (m.walk fuel a).length) :
    (m.walk fuel a)[k] = m.read (a + k) ∧ m.read (a + k) ≠ 0#16 := by
  induction fuel generalizing a k with
  | zero => simp [Memory.walk] at h
  | succ n ih =>
    by_cases h0 : m.read a = 0#16
    · simp [Memory.walk, h0] at h
    · cases k with
      | zero => simp [Memory.walk, h0]
      | succ k =>
        have hlt : k < (m.walk n (a + 1)).length := by simpa [Memory.walk, h0] using h
        have := ih (a + 1) k hlt
        rw [show a + (k + 1) = a + 1 + k by omega]
        simpa [Memory.walk, h0] using this

/-- The walk ends at a zero word, or with its fuel. -/
theorem Memory.walk_end (m : Memory) (fuel a : Nat) :
    (m.walk fuel a).length = fuel ∨ m.read (a + (m.walk fuel a).length) = 0#16 := by
  induction fuel generalizing a with
  | zero => simp [Memory.walk]
  | succ n ih =>
    by_cases h0 : m.read a = 0#16
    · simp [Memory.walk, h0]
    · rcases ih (a + 1) with h | h
      · simp [Memory.walk, h0, h]
      · right
        have : a + ((m.walk n (a + 1)).length + 1) = a + 1 + (m.walk n (a + 1)).length := by omega
        simpa [Memory.walk, h0, this] using h

/-- The string at an address (47_trap.md R203, R209): its words are those of the cells from there upwards,
none of them zero, and it ends before a zero word or after the last address. -/
theorem Memory.stringAt_spec (m : Memory) (a : Word) :
    ∃ n, a.toNat + n ≤ memSize ∧ (∀ k < n, m.read (a.toNat + k) ≠ 0x0000#16) ∧
      (a.toNat + n = memSize ∨ m.read (a.toNat + n) = 0x0000#16) ∧
      m.stringAt a = (List.range n).map fun k => m.read (a.toNat + k) := by
  have ha : a.toNat < memSize := a.isLt
  have hl := Memory.walk_length m (memSize - a.toNat) a.toNat
  have hg := Memory.walk_getElem m (memSize - a.toNat) a.toNat
  refine ⟨(m.stringAt a).length, ?_, fun k hk => (hg k hk).2, ?_, ?_⟩
  · unfold Memory.stringAt; omega
  · unfold Memory.stringAt
    rcases Memory.walk_end m (memSize - a.toNat) a.toNat with he | he
    · left; omega
    · exact .inr he
  · apply List.ext_getElem
    · simp
    · intro k h1 h2
      rw [List.getElem_map, List.getElem_range]
      exact (hg k h1).1

end Sys2Proof
end

