-- ==== Sys2Proof/Laws/State.lean ====
section
/-! SUPPORT. One lemma for each field and each named update of State, true by rfl, so that no proof unfolds
a record update. -/

namespace Sys2Proof.Machine

/-! ## setReg -/

@[simp] theorem State.setReg_regs (s : State) (r : RegIx) (v : Word) :
    (s.setReg r v).regs = s.regs.set r.val v := rfl
@[simp] theorem State.setReg_pc (s : State) (r : RegIx) (v : Word) :
    (s.setReg r v).pc = s.pc := rfl
@[simp] theorem State.setReg_cond (s : State) (r : RegIx) (v : Word) :
    (s.setReg r v).cond = s.cond := rfl
@[simp] theorem State.setReg_running (s : State) (r : RegIx) (v : Word) :
    (s.setReg r v).running = s.running := rfl
@[simp] theorem State.setReg_mem (s : State) (r : RegIx) (v : Word) :
    (s.setReg r v).mem = s.mem := rfl
@[simp] theorem State.setReg_ir (s : State) (r : RegIx) (v : Word) :
    (s.setReg r v).ir = s.ir := rfl
@[simp] theorem State.setReg_stage (s : State) (r : RegIx) (v : Word) :
    (s.setReg r v).stage = s.stage := rfl
@[simp] theorem State.setReg_inp (s : State) (r : RegIx) (v : Word) :
    (s.setReg r v).inp = s.inp := rfl
@[simp] theorem State.setReg_trace (s : State) (r : RegIx) (v : Word) :
    (s.setReg r v).trace = s.trace := rfl
@[simp] theorem State.setReg_params (s : State) (r : RegIx) (v : Word) :
    (s.setReg r v).params = s.params := rfl

/-! ## setFlags -/

@[simp] theorem State.setFlags_regs (s : State) (v : Word) :
    (s.setFlags v).regs = s.regs := rfl
@[simp] theorem State.setFlags_pc (s : State) (v : Word) :
    (s.setFlags v).pc = s.pc := rfl
@[simp] theorem State.setFlags_cond (s : State) (v : Word) :
    (s.setFlags v).cond = flagOf v := rfl
@[simp] theorem State.setFlags_running (s : State) (v : Word) :
    (s.setFlags v).running = s.running := rfl
@[simp] theorem State.setFlags_mem (s : State) (v : Word) :
    (s.setFlags v).mem = s.mem := rfl
@[simp] theorem State.setFlags_ir (s : State) (v : Word) :
    (s.setFlags v).ir = s.ir := rfl
@[simp] theorem State.setFlags_stage (s : State) (v : Word) :
    (s.setFlags v).stage = s.stage := rfl
@[simp] theorem State.setFlags_inp (s : State) (v : Word) :
    (s.setFlags v).inp = s.inp := rfl
@[simp] theorem State.setFlags_trace (s : State) (v : Word) :
    (s.setFlags v).trace = s.trace := rfl
@[simp] theorem State.setFlags_params (s : State) (v : Word) :
    (s.setFlags v).params = s.params := rfl

/-! ## setResult -/

@[simp] theorem State.setResult_regs (s : State) (dr : RegIx) (v : Word) :
    (s.setResult dr v).regs = s.regs.set dr.val v := rfl
@[simp] theorem State.setResult_pc (s : State) (dr : RegIx) (v : Word) :
    (s.setResult dr v).pc = s.pc := rfl
@[simp] theorem State.setResult_cond (s : State) (dr : RegIx) (v : Word) :
    (s.setResult dr v).cond = flagOf v := rfl
@[simp] theorem State.setResult_running (s : State) (dr : RegIx) (v : Word) :
    (s.setResult dr v).running = s.running := rfl
@[simp] theorem State.setResult_mem (s : State) (dr : RegIx) (v : Word) :
    (s.setResult dr v).mem = s.mem := rfl
@[simp] theorem State.setResult_ir (s : State) (dr : RegIx) (v : Word) :
    (s.setResult dr v).ir = s.ir := rfl
@[simp] theorem State.setResult_stage (s : State) (dr : RegIx) (v : Word) :
    (s.setResult dr v).stage = s.stage := rfl
@[simp] theorem State.setResult_inp (s : State) (dr : RegIx) (v : Word) :
    (s.setResult dr v).inp = s.inp := rfl
@[simp] theorem State.setResult_trace (s : State) (dr : RegIx) (v : Word) :
    (s.setResult dr v).trace = s.trace := rfl
@[simp] theorem State.setResult_params (s : State) (dr : RegIx) (v : Word) :
    (s.setResult dr v).params = s.params := rfl

/-! ## setCell -/

@[simp] theorem State.setCell_regs (s : State) (a v : Word) :
    (s.setCell a v).regs = s.regs := rfl
@[simp] theorem State.setCell_pc (s : State) (a v : Word) :
    (s.setCell a v).pc = s.pc := rfl
@[simp] theorem State.setCell_cond (s : State) (a v : Word) :
    (s.setCell a v).cond = s.cond := rfl
@[simp] theorem State.setCell_running (s : State) (a v : Word) :
    (s.setCell a v).running = s.running := rfl
@[simp] theorem State.setCell_mem (s : State) (a v : Word) :
    (s.setCell a v).mem = s.mem.write a.toNat v := rfl
@[simp] theorem State.setCell_ir (s : State) (a v : Word) :
    (s.setCell a v).ir = s.ir := rfl
@[simp] theorem State.setCell_stage (s : State) (a v : Word) :
    (s.setCell a v).stage = s.stage := rfl
@[simp] theorem State.setCell_inp (s : State) (a v : Word) :
    (s.setCell a v).inp = s.inp := rfl
@[simp] theorem State.setCell_trace (s : State) (a v : Word) :
    (s.setCell a v).trace = s.trace := rfl
@[simp] theorem State.setCell_params (s : State) (a v : Word) :
    (s.setCell a v).params = s.params := rfl

/-! ## emit -/

@[simp] theorem State.emit_regs (s : State) (bs : List Byte) :
    (s.emit bs).regs = s.regs := rfl
@[simp] theorem State.emit_pc (s : State) (bs : List Byte) :
    (s.emit bs).pc = s.pc := rfl
@[simp] theorem State.emit_cond (s : State) (bs : List Byte) :
    (s.emit bs).cond = s.cond := rfl
@[simp] theorem State.emit_running (s : State) (bs : List Byte) :
    (s.emit bs).running = s.running := rfl
@[simp] theorem State.emit_mem (s : State) (bs : List Byte) :
    (s.emit bs).mem = s.mem := rfl
@[simp] theorem State.emit_ir (s : State) (bs : List Byte) :
    (s.emit bs).ir = s.ir := rfl
@[simp] theorem State.emit_stage (s : State) (bs : List Byte) :
    (s.emit bs).stage = s.stage := rfl
@[simp] theorem State.emit_inp (s : State) (bs : List Byte) :
    (s.emit bs).inp = s.inp := rfl
@[simp] theorem State.emit_trace (s : State) (bs : List Byte) :
    (s.emit bs).trace = s.trace ++ bs.map .out := rfl
@[simp] theorem State.emit_params (s : State) (bs : List Byte) :
    (s.emit bs).params = s.params := rfl

/-! ## polled -/

@[simp] theorem State.polled_regs (s : State) :
    (s.polled).regs = s.regs := rfl
@[simp] theorem State.polled_pc (s : State) :
    (s.polled).pc = s.pc := rfl
@[simp] theorem State.polled_cond (s : State) :
    (s.polled).cond = s.cond := rfl
@[simp] theorem State.polled_running (s : State) :
    (s.polled).running = s.running := rfl
@[simp] theorem State.polled_mem (s : State) :
    (s.polled).mem = s.mem := rfl
@[simp] theorem State.polled_ir (s : State) :
    (s.polled).ir = s.ir := rfl
@[simp] theorem State.polled_stage (s : State) :
    (s.polled).stage = s.stage := rfl
@[simp] theorem State.polled_inp (s : State) :
    (s.polled).inp = s.inp.turn := rfl
@[simp] theorem State.polled_trace (s : State) :
    (s.polled).trace = s.trace ++ [.poll s.keyPending] := rfl
@[simp] theorem State.polled_params (s : State) :
    (s.polled).params = s.params := rfl

/-! ## latch -/

@[simp] theorem State.latch_regs (s : State) (w : Word) :
    (s.latch w).regs = s.regs := rfl
@[simp] theorem State.latch_pc (s : State) (w : Word) :
    (s.latch w).pc = s.pc + 1 := rfl
@[simp] theorem State.latch_cond (s : State) (w : Word) :
    (s.latch w).cond = s.cond := rfl
@[simp] theorem State.latch_running (s : State) (w : Word) :
    (s.latch w).running = s.running := rfl
@[simp] theorem State.latch_mem (s : State) (w : Word) :
    (s.latch w).mem = s.mem := rfl
@[simp] theorem State.latch_ir (s : State) (w : Word) :
    (s.latch w).ir = w := rfl
@[simp] theorem State.latch_stage (s : State) (w : Word) :
    (s.latch w).stage = s.stage := rfl
@[simp] theorem State.latch_inp (s : State) (w : Word) :
    (s.latch w).inp = s.inp := rfl
@[simp] theorem State.latch_trace (s : State) (w : Word) :
    (s.latch w).trace = s.trace := rfl
@[simp] theorem State.latch_params (s : State) (w : Word) :
    (s.latch w).params = s.params := rfl

end Sys2Proof.Machine
end

