-- ==== Sys2Proof/Laws/Ops.lean ====
section
/-! SUPPORT. One lemma for each shared operation that says once everything it can do; proofs about
instructions cite these and unfold no operation. -/

namespace Sys2Proof.Machine

/-! ## Registers and cells through updates -/

@[simp] theorem State.reg_setReg_same (s : State) (r : RegIx) (v : Word) : (s.setReg r v).reg r = v := by
  simp [State.reg, State.setReg]

theorem State.reg_setReg_other (s : State) {r q : RegIx} (v : Word) (h : q ≠ r) :
    (s.setReg r v).reg q = s.reg q := by
  have : r.val ≠ q.val := fun e => h (Fin.ext e.symm)
  simp [State.reg, State.setReg, this]

theorem State.reg_setReg (s : State) (r q : RegIx) (v : Word) :
    (s.setReg r v).reg q = if q = r then v else s.reg q := by
  split
  · next h => subst h; simp
  · next h => exact State.reg_setReg_other s v h

/-- States with the same register file read the same registers. -/
theorem State.reg_congr {s t : State} (h : t.regs = s.regs) (r : RegIx) : t.reg r = s.reg r := by
  unfold State.reg; rw [h]

/-- States with the same memory read the same cells. -/
theorem State.cell_congr {s t : State} (h : t.mem = s.mem) (a : Word) : t.cell a = s.cell a := by
  unfold State.cell; rw [h]

@[simp] theorem State.reg_setFlags (s : State) (v : Word) (r : RegIx) : (s.setFlags v).reg r = s.reg r := rfl
@[simp] theorem State.reg_setCell (s : State) (a v : Word) (r : RegIx) : (s.setCell a v).reg r = s.reg r := rfl
@[simp] theorem State.reg_emit (s : State) (bs : List Byte) (r : RegIx) : (s.emit bs).reg r = s.reg r := rfl
@[simp] theorem State.reg_polled (s : State) (r : RegIx) : s.polled.reg r = s.reg r := rfl
@[simp] theorem State.reg_latch (s : State) (w : Word) (r : RegIx) : (s.latch w).reg r = s.reg r := rfl
@[simp] theorem State.reg_setResult_same (s : State) (r : RegIx) (v : Word) :
    (s.setResult r v).reg r = v := by
  simp [State.setResult]

theorem State.reg_setResult_other (s : State) {r q : RegIx} (v : Word) (h : q ≠ r) :
    (s.setResult r v).reg q = s.reg q := by
  simpa [State.setResult] using State.reg_setReg_other s v h

@[simp] theorem State.cell_setReg (s : State) (r : RegIx) (v a : Word) : (s.setReg r v).cell a = s.cell a := rfl
@[simp] theorem State.cell_setFlags (s : State) (v a : Word) : (s.setFlags v).cell a = s.cell a := rfl
@[simp] theorem State.cell_setResult (s : State) (r : RegIx) (v a : Word) :
    (s.setResult r v).cell a = s.cell a := rfl
@[simp] theorem State.cell_emit (s : State) (bs : List Byte) (a : Word) : (s.emit bs).cell a = s.cell a := rfl
@[simp] theorem State.cell_polled (s : State) (a : Word) : s.polled.cell a = s.cell a := rfl
@[simp] theorem State.cell_latch (s : State) (w a : Word) : (s.latch w).cell a = s.cell a := rfl
@[simp] theorem State.cell_setCell_same (s : State) (a v : Word) : (s.setCell a v).cell a = v := by
  simp [State.cell]

theorem State.cell_setCell_other (s : State) {a b : Word} (v : Word) (h : b ≠ a) :
    (s.setCell a v).cell b = s.cell b := by
  have : b.toNat ≠ a.toNat := fun e => h (BitVec.eq_of_toNat_eq e)
  simp [State.cell, Memory.read_write_other _ _ this]

/-! ## The environment and the input stream -/

/-- The environment's turn: bytes join the tail, none once EOF is set, and EOF is never cleared. -/
theorem envTurn_spec (env : List EnvAct) (q : List Byte) (e : Bool) :
    ∃ arrived, (envTurn env q e).queue = q ++ arrived ∧ (e = true → arrived = []) ∧
      (e = true → (envTurn env q e).eof = true) := by
  induction env generalizing q e with
  | nil => exact ⟨[], by simp [envTurn]⟩
  | cons act env ih =>
    cases act with
    | pass => exact ⟨[], by simp [envTurn]⟩
    | endOfInput =>
      obtain ⟨arr, h1, h2, h3⟩ := ih q true
      exact ⟨arr, h1, fun _ => h2 rfl, fun _ => h3 rfl⟩
    | key b =>
      cases e with
      | true =>
        obtain ⟨arr, h1, h2, h3⟩ := ih q true
        exact ⟨arr, by simpa [envTurn] using h1, fun _ => h2 rfl, fun _ => by simpa [envTurn] using h3 rfl⟩
      | false =>
        obtain ⟨arr, h1, -, -⟩ := ih (q ++ [b]) false
        exact ⟨b :: arr, by simpa [envTurn] using h1, by simp, by simp⟩

theorem InputStream.turn_spec (i : InputStream) :
    ∃ arrived, i.turn.queue = i.queue ++ arrived ∧ (i.eof = true → arrived = []) ∧
      (i.eof = true → i.turn.eof = true) :=
  envTurn_spec i.env i.queue i.eof

/-- With nothing more to come from the environment, its turn changes nothing. -/
theorem InputStream.turn_of_env_nil {i : InputStream} (h : i.env = []) : i.turn = i := by
  obtain ⟨q, e, v⟩ := i
  subst h
  rfl

/-- Input once there stays there through the environment's turn. -/
theorem InputStream.turn_keeps_input {i : InputStream} (h : i.queue ≠ [] ∨ i.eof = true) :
    i.turn.queue ≠ [] ∨ i.turn.eof = true := by
  obtain ⟨arr, h1, -, h3⟩ := i.turn_spec
  rcases h with h | h
  · left; simp [h1, h]
  · right; exact h3 h

/-- All that `NextChar()` can do (10_state.md R36). -/
theorem State.nextChar_cases (s : State) :
    (∃ c rest, s.inp.turn.queue = c :: rest ∧
      s.nextChar = .value (zext16 c)
        { s with inp := { s.inp.turn with queue := rest }, trace := s.trace ++ [.inChar c] }) ∨
    (s.inp.turn.queue = [] ∧ s.inp.turn.eof = true ∧
      s.nextChar = .value s.params.eofSentinel { s with inp := s.inp.turn, trace := s.trace ++ [.inEof] }) ∨
    (s.inp.turn.queue = [] ∧ s.inp.turn.eof = false ∧ s.nextChar = .waits { s with inp := s.inp.turn }) := by
  unfold State.nextChar
  rcases s.inp.turn with ⟨q, e, v⟩
  cases q with
  | cons c rest => exact .inl ⟨c, rest, rfl, rfl⟩
  | nil =>
    cases e with
    | true => exact .inr (.inl ⟨rfl, rfl, rfl⟩)
    | false => exact .inr (.inr ⟨rfl, rfl, rfl⟩)

theorem State.inputReady_iff (s : State) :
    s.inputReady = true ↔ s.inp.turn.queue ≠ [] ∨ s.inp.turn.eof = true := by
  simp [State.inputReady]

theorem State.inputReady_eq_false_iff (s : State) :
    s.inputReady = false ↔ s.inp.turn.queue = [] ∧ s.inp.turn.eof = false := by
  simp [State.inputReady]

/-- An answered `NextChar()` touches the streams alone, and its input was there. -/
theorem State.nextChar_value {s t : State} {v : Word} (h : s.nextChar = .value v t) :
    s.inputReady = true ∧ t = { s with inp := t.inp, trace := t.trace } := by
  rcases s.nextChar_cases with ⟨c, rest, hq, e⟩ | ⟨-, he, e⟩ | ⟨-, -, e⟩ <;> rw [e] at h
  · cases h; exact ⟨(s.inputReady_iff).2 (.inl (by simp [hq])), rfl⟩
  · cases h; exact ⟨(s.inputReady_iff).2 (.inr he), rfl⟩
  · cases h

/-- A `NextChar()` waits exactly when there is no input, and only the environment has then acted. -/
theorem State.nextChar_waits {s t : State} (h : s.nextChar = .waits t) :
    s.inputReady = false ∧ t = { s with inp := s.inp.turn } := by
  rcases s.nextChar_cases with ⟨c, rest, hq, e⟩ | ⟨-, he, e⟩ | ⟨hq, he, e⟩ <;> rw [e] at h
  · cases h
  · cases h
  · cases h; exact ⟨(s.inputReady_eq_false_iff).2 ⟨hq, he⟩, rfl⟩

theorem State.nextChar_of_ready {s : State} (h : s.inputReady = true) : ∃ v t, s.nextChar = .value v t := by
  cases e : s.nextChar with
  | value v t => exact ⟨v, t, rfl⟩
  | waits t => simp [(State.nextChar_waits e).1] at h

theorem State.nextChar_of_not_ready {s : State} (h : s.inputReady = false) :
    s.nextChar = .waits { s with inp := s.inp.turn } := by
  cases e : s.nextChar with
  | value v t => simp [(State.nextChar_value e).1] at h
  | waits t => rw [(State.nextChar_waits e).2]

/-! ## The Memory Subsystem -/

/-- All that `MemRead` can do (20_memory.md R52). -/
theorem State.memRead_cases (s : State) (a : Word) :
    (a = kbsrAddr ∧ s.memRead a = .value (if s.keyPending then readyWord else 0#16) s.polled) ∨
    (a = kbdrAddr ∧ s.memRead a = s.nextChar) ∨
    (a = dsrAddr ∧ s.memRead a = .value readyWord s) ∨
    (readIntercepted a = false ∧ s.memRead a = .value (s.cell a) s) := by
  unfold State.memRead
  by_cases h1 : a = kbsrAddr
  · exact .inl ⟨h1, if_pos h1⟩
  · by_cases h2 : a = kbdrAddr
    · exact .inr (.inl ⟨h2, by rw [if_neg h1, if_pos h2]⟩)
    · by_cases h3 : a = dsrAddr
      · exact .inr (.inr (.inl ⟨h3, by rw [if_neg h1, if_neg h2, if_pos h3]⟩))
      · refine .inr (.inr (.inr ⟨?_, by rw [if_neg h1, if_neg h2, if_neg h3]⟩))
        simp [readIntercepted, h1, h2, h3]

theorem State.memRead_plain (s : State) {a : Word} (h : readIntercepted a = false) :
    s.memRead a = .value (s.cell a) s := by
  rcases s.memRead_cases a with ⟨e, -⟩ | ⟨e, -⟩ | ⟨e, -⟩ | ⟨-, e⟩
  · subst e; exact absurd h (by decide)
  · subst e; exact absurd h (by decide)
  · subst e; exact absurd h (by decide)
  · exact e

/-- An answered read touches the streams alone (R57). -/
theorem State.memRead_value {s t : State} {a v : Word} (h : s.memRead a = .value v t) :
    s.readable a = true ∧ t = { s with inp := t.inp, trace := t.trace } := by
  rcases s.memRead_cases a with ⟨rfl, e⟩ | ⟨rfl, e⟩ | ⟨rfl, e⟩ | ⟨hn, e⟩ <;> rw [e] at h
  · cases h; exact ⟨by rfl, rfl⟩
  · obtain ⟨h1, h2⟩ := State.nextChar_value h
    exact ⟨by simp [State.readable, h1], h2⟩
  · cases h; exact ⟨by rfl, rfl⟩
  · cases h
    refine ⟨?_, rfl⟩
    have : a ≠ kbdrAddr := by rintro rfl; exact absurd hn (by decide)
    simp [State.readable, this]

/-- A read waits only at the keyboard data register with no input, and only the environment has then
acted. -/
theorem State.memRead_waits {s t : State} {a : Word} (h : s.memRead a = .waits t) :
    a = kbdrAddr ∧ s.inputReady = false ∧ t = { s with inp := s.inp.turn } := by
  rcases s.memRead_cases a with ⟨rfl, e⟩ | ⟨rfl, e⟩ | ⟨rfl, e⟩ | ⟨-, e⟩ <;> rw [e] at h
  · cases h
  · exact ⟨rfl, State.nextChar_waits h⟩
  · cases h
  · cases h

theorem State.memRead_of_readable {s : State} {a : Word} (h : s.readable a = true) :
    ∃ v t, s.memRead a = .value v t := by
  cases e : s.memRead a with
  | value v t => exact ⟨v, t, rfl⟩
  | waits t =>
    obtain ⟨rfl, h1, -⟩ := State.memRead_waits e
    simp [State.readable, h1] at h

theorem State.memRead_of_not_readable {s : State} {a : Word} (h : s.readable a = false) :
    s.memRead a = .waits { s with inp := s.inp.turn } := by
  cases e : s.memRead a with
  | value v t => simp [(State.memRead_value e).1] at h
  | waits t => rw [(State.memRead_waits e).2.2]

/-- All that `MemWrite` can do, field by field (R58 to R61). -/
theorem State.memWrite_eq (s : State) (a v : Word) :
    s.memWrite a v =
      { s with
        mem := s.mem.write a.toNat v
        trace := if a = ddrAddr then s.trace ++ [.out (lowByte v)] else s.trace
        running := if a = mcrAddr ∧ v.getLsbD 15 = false then false else s.running } := by
  unfold State.memWrite
  by_cases h1 : a = ddrAddr
  · have h2 : ¬ (a = mcrAddr ∧ v.getLsbD 15 = false) := by
      rintro ⟨e, -⟩; rw [h1] at e; exact absurd e (by decide)
    rw [if_pos h1, if_pos h1, if_neg h2]
    rfl
  · by_cases h2 : a = mcrAddr ∧ v.getLsbD 15 = false
    · simp only [if_neg h1, if_pos h2]
      rfl
    · simp only [if_neg h1, if_neg h2]
      rfl

@[simp] theorem State.memWrite_regs (s : State) (a v : Word) : (s.memWrite a v).regs = s.regs := by
  rw [State.memWrite_eq]
@[simp] theorem State.memWrite_pc (s : State) (a v : Word) : (s.memWrite a v).pc = s.pc := by
  rw [State.memWrite_eq]
@[simp] theorem State.memWrite_cond (s : State) (a v : Word) : (s.memWrite a v).cond = s.cond := by
  rw [State.memWrite_eq]
@[simp] theorem State.memWrite_mem (s : State) (a v : Word) :
    (s.memWrite a v).mem = s.mem.write a.toNat v := by
  rw [State.memWrite_eq]
@[simp] theorem State.memWrite_ir (s : State) (a v : Word) : (s.memWrite a v).ir = s.ir := by
  rw [State.memWrite_eq]
@[simp] theorem State.memWrite_stage (s : State) (a v : Word) : (s.memWrite a v).stage = s.stage := by
  rw [State.memWrite_eq]
@[simp] theorem State.memWrite_inp (s : State) (a v : Word) : (s.memWrite a v).inp = s.inp := by
  rw [State.memWrite_eq]
@[simp] theorem State.memWrite_params (s : State) (a v : Word) : (s.memWrite a v).params = s.params := by
  rw [State.memWrite_eq]
@[simp] theorem State.memWrite_trace (s : State) (a v : Word) :
    (s.memWrite a v).trace = if a = ddrAddr then s.trace ++ [.out (lowByte v)] else s.trace := by
  rw [State.memWrite_eq]
@[simp] theorem State.memWrite_running (s : State) (a v : Word) :
    (s.memWrite a v).running = if a = mcrAddr ∧ v.getLsbD 15 = false then false else s.running := by
  rw [State.memWrite_eq]

@[simp] theorem State.reg_memWrite (s : State) (a v : Word) (r : RegIx) : (s.memWrite a v).reg r = s.reg r :=
  State.reg_congr (by simp) r

@[simp] theorem State.cell_memWrite_same (s : State) (a v : Word) : (s.memWrite a v).cell a = v := by
  simp [State.cell]

theorem State.cell_memWrite_other (s : State) {a b : Word} (v : Word) (h : b ≠ a) :
    (s.memWrite a v).cell b = s.cell b := by
  have : b.toNat ≠ a.toNat := fun e => h (BitVec.eq_of_toNat_eq e)
  simp [State.cell, Memory.read_write_other _ _ this]

/-- A write keeps the canonical form of memory. -/
theorem State.memWrite_wf {s : State} (a v : Word) (h : s.mem.wf = true) : (s.memWrite a v).mem.wf = true := by
  simpa using Memory.wf_write s.mem v (by have := a.isLt; simpa [memSize] using this) h

/-! ## How an instruction ends -/

theorem complete_eq_next {s t : State} (h : complete s = .next t) : t = { s with stage := .fetch } := by
  simpa [complete, eq_comm] using h

theorem await_eq_next {s t : State} (h : await s = .next t) : t = { s with stage := .waiting } := by
  simpa [await, eq_comm] using h

/-- All that the end of a load can do. -/
theorem finishLoad_eq_next {dr : RegIx} {r : Access} {t : State} (h : finishLoad dr r = .next t) :
    (∃ v u, r = .value v u ∧ t = { u.setResult dr v with stage := .fetch }) ∨
    (∃ u, r = .waits u ∧ t = { u with stage := .waiting }) := by
  cases r with
  | value v u => exact .inl ⟨v, u, rfl, complete_eq_next h⟩
  | waits u => exact .inr ⟨u, rfl, await_eq_next h⟩

/-! ## Flags and sign extension -/

/-- SetFlags read as a signed comparison with zero (40_cycle.md R124). -/
theorem flagOf_signed (v : Word) :
    (flagOf v = .negative ↔ v.toInt < 0) ∧ (flagOf v = .zero ↔ v.toInt = 0) ∧
      (flagOf v = .positive ↔ 0 < v.toInt) := by
  have hm : v.getLsbD 15 = v.msb := rfl
  have hneg : v.msb = true ↔ v.toInt < 0 := by rw [BitVec.msb_eq_toInt]; simp
  have hzero : v = 0#16 ↔ v.toInt = 0 := by
    constructor
    · rintro rfl; rfl
    · intro h; exact BitVec.eq_of_toInt_eq (by simpa using h)
  unfold flagOf
  rw [hm]
  by_cases h1 : v.msb = true
  · have := hneg.1 h1
    rw [if_pos h1]
    simp; omega
  · have h1' : ¬ v.toInt < 0 := fun h => h1 (hneg.2 h)
    rw [if_neg h1]
    by_cases h2 : v = 0#16
    · have := hzero.1 h2
      rw [if_pos h2]; simp; omega
    · have h2' : v.toInt ≠ 0 := fun h => h2 (hzero.2 h)
      rw [if_neg h2]; simp; omega

/-- The flags after a result, as `FlagsSay` reads them. -/
theorem flagsSay_of_cond {t : State} {v : Word} (h : t.cond = flagOf v) : FlagsSay t v := by
  unfold FlagsSay; rw [h]; exact flagOf_signed v

/-- Sign extension is the library's (40_cycle.md R126). -/
theorem sext16_eq_signExtend {k : Nat} (f : BitVec k) (hk : k ≤ 16) : sext16 f = f.signExtend 16 := by
  have hones : ∀ j < 16, (0xFFFF#16).getLsbD j = true := by decide
  apply BitVec.eq_of_getLsbD_eq
  intro i hi
  rw [BitVec.getLsbD_signExtend]
  unfold sext16
  split
  · next h =>
    rw [BitVec.getLsbD_or, BitVec.getLsbD_setWidth, BitVec.getLsbD_shiftLeft]
    by_cases h1 : i < k
    · simp [h1, hi]
    · simp only [h1, hi, h, hones (i - k) (by omega)]; simp
  · next h =>
    rw [BitVec.getLsbD_setWidth]
    by_cases h1 : i < k
    · simp [h1, hi]
    · have : f.getLsbD i = false := BitVec.getLsbD_of_ge f i (by omega)
      simp [h1, h, this]

/-- The characters PUTSP emits for a word (47_trap.md R205). -/
theorem packedBytes_eq (w : Word) :
    packedBytes w = lowByte w :: if highByte w = 0x00#8 then [] else [highByte w] := by
  unfold packedBytes; split <;> rfl

/-- `Emit` appends to OUT (10_state.md R37). -/
theorem State.out_emit (s : State) (bs : List Byte) : (s.emit bs).out = s.out ++ bs := by
  have : (bs.map Event.out).filterMap Event.outByte = bs := by
    induction bs with
    | nil => rfl
    | cons b bs ih => rw [List.map_cons, List.filterMap_cons]; simp only [Event.outByte]; rw [ih]
  simp [State.out, this]

end Sys2Proof.Machine
end

