-- ==== Sys2Proof/Laws/Exec.lean ====
section
/-! SUPPORT. Inversion lemmas: all that a step, and each meaning that reads input, can do. Proofs about
runs cite these. -/

namespace Sys2Proof.Machine

/-! ## Reads keep the core -/

/-- What is the same before and after an answered read, or a wait. -/
theorem State.memRead_keeps {s u : State} {a v : Word} (h : s.memRead a = .value v u) :
    u = { s with inp := u.inp, trace := u.trace } := (State.memRead_value h).2

/-- A word that is no address of an intercepted register: a character, zero-extended. -/
theorem zext16_ne_kbdrAddr (c : Byte) : zext16 c ≠ kbdrAddr := by revert c; decide

/-- A ready stream still has its input after one answered read, or the word read cannot be the keyboard
data register's address: so the second read of LDI waits only when its first read was of a plain cell. -/
theorem State.memRead_twice_waits {s u w : State} {pa ea : Word} (h1 : s.memRead pa = .value ea u)
    (h2 : u.memRead ea = .waits w) :
    readIntercepted pa = false ∧ u = s ∧ s.cell pa = kbdrAddr ∧ s.inputReady = false ∧
      w = { s with inp := s.inp.turn } := by
  obtain ⟨hea, hready, hw⟩ := State.memRead_waits h2
  rcases s.memRead_cases pa with ⟨-, e⟩ | ⟨-, e⟩ | ⟨-, e⟩ | ⟨hp, e⟩ <;> rw [e] at h1
  · injection h1 with e1 e2
    rw [hea] at e1
    exact absurd e1 (by split <;> decide)
  · rcases s.nextChar_cases with ⟨c, rest, hq, e2⟩ | ⟨hq, he, e2⟩ | ⟨hq, he, e2⟩ <;> rw [e2] at h1
    · injection h1 with e1 _
      exact absurd (e1.trans hea) (zext16_ne_kbdrAddr c)
    · injection h1 with _ e3
      subst e3
      rw [State.inputReady_eq_false_iff] at hready
      obtain ⟨_, _, _, h6⟩ := s.inp.turn.turn_spec
      have := h6 he
      simp [this] at hready
    · cases h1
  · injection h1 with e1 e2
    rw [hea] at e1
    exact absurd e1 (by decide)
  · injection h1 with e1 e2
    subst e2
    exact ⟨hp, rfl, e1.trans hea, hready, hw⟩

/-! ## The meanings that read -/

/-- All that LD and LDR can do. -/
theorem finishLoad_memRead_eq_next {s t : State} {a : Word} {dr : RegIx}
    (h : finishLoad dr (s.memRead a) = .next t) :
    (∃ v u, s.memRead a = .value v u ∧ t = { u.setResult dr v with stage := .fetch }) ∨
    (a = kbdrAddr ∧ s.inputReady = false ∧ t = { s with inp := s.inp.turn, stage := .waiting }) := by
  rcases finishLoad_eq_next h with ⟨v, u, e, rfl⟩ | ⟨u, e, rfl⟩
  · exact .inl ⟨v, u, e, rfl⟩
  · obtain ⟨h1, h2, rfl⟩ := State.memRead_waits e
    exact .inr ⟨h1, h2, rfl⟩

/-- All that LDI can do. -/
theorem execLdi_eq_next {dr : RegIx} {off9 : BitVec 9} {s t : State} (h : execLdi dr off9 s = .next t) :
    (∃ ea u v w, s.memRead (pcRelative s.pc off9) = .value ea u ∧ u.memRead ea = .value v w ∧
      t = { w.setResult dr v with stage := .fetch }) ∨
    (s.awaitsInput (.ldi dr off9) = true ∧ s.inputReady = false ∧
      t = { s with inp := s.inp.turn, stage := .waiting }) := by
  unfold execLdi at h
  cases e : s.memRead (pcRelative s.pc off9) with
  | waits u =>
    rw [e] at h
    obtain ⟨h1, h2, h3⟩ := State.memRead_waits e
    exact .inr ⟨by simp [State.awaitsInput, h1], h2, by rw [await_eq_next h, h3]⟩
  | value ea u =>
    rw [e] at h
    rcases finishLoad_eq_next h with ⟨v, w, h1, h2⟩ | ⟨w, h1, h2⟩
    · exact .inl ⟨ea, u, v, w, rfl, h1, h2⟩
    · obtain ⟨h3, -, h4, h5, h6⟩ := State.memRead_twice_waits e h1
      exact .inr ⟨by simp [State.awaitsInput, h3, h4], h5, by rw [h2, h6]⟩

/-- All that STI can do. -/
theorem execSti_eq_next {sr : RegIx} {off9 : BitVec 9} {s t : State} (h : execSti sr off9 s = .next t) :
    (∃ ea u, s.memRead (pcRelative s.pc off9) = .value ea u ∧
      t = { u.memWrite ea (u.reg sr) with stage := .fetch }) ∨
    (pcRelative s.pc off9 = kbdrAddr ∧ s.inputReady = false ∧
      t = { s with inp := s.inp.turn, stage := .waiting }) := by
  unfold execSti at h
  cases e : s.memRead (pcRelative s.pc off9) with
  | value ea u => rw [e] at h; exact .inl ⟨ea, u, rfl, complete_eq_next h⟩
  | waits u =>
    rw [e] at h
    obtain ⟨h1, h2, h3⟩ := State.memRead_waits e
    exact .inr ⟨h1, h2, by rw [await_eq_next h, h3]⟩

/-- All that GETC can do. -/
theorem execTrapGetc_eq_next {s t : State} (h : execTrapGetc s = .next t) :
    (∃ v u, s.nextChar = .value v u ∧ t = { u.setReg 0 v with stage := .fetch }) ∨
    (s.inputReady = false ∧ t = { s with inp := s.inp.turn, stage := .waiting }) := by
  unfold execTrapGetc at h
  cases e : s.nextChar with
  | value v u => rw [e] at h; exact .inl ⟨v, u, rfl, complete_eq_next h⟩
  | waits u =>
    rw [e] at h
    obtain ⟨h2, h3⟩ := State.nextChar_waits e
    exact .inr ⟨h2, by rw [await_eq_next h, h3]⟩

/-- The prompt changes the trace alone. -/
theorem promptedState_eq (s : State) :
    promptedState s =
      { s with trace := s.trace ++ (if s.stage = .prompted then [] else s.params.inPrompt.map .out) } := by
  unfold promptedState
  by_cases h : s.stage = .prompted
  · rw [if_pos h, if_pos h]; simp
  · rw [if_neg h, if_neg h]; rfl

@[simp] theorem promptedState_inputReady (s : State) : (promptedState s).inputReady = s.inputReady := by
  rw [promptedState_eq]; rfl

/-- All that IN can do. -/
theorem execTrapIn_eq_next {s t : State} (h : execTrapIn s = .next t) :
    (∃ v u, (promptedState s).nextChar = .value v u ∧
      t = { (u.setReg 0 v).emit [lowByte v] with stage := .fetch }) ∨
    (s.inputReady = false ∧ t = { promptedState s with inp := s.inp.turn, stage := .prompted }) := by
  have hp : (promptedState s).inp = s.inp := by rw [promptedState_eq]
  unfold execTrapIn at h
  cases e : (promptedState s).nextChar with
  | value v u => rw [e] at h; exact .inl ⟨v, u, rfl, complete_eq_next h⟩
  | waits u =>
    rw [e] at h
    obtain ⟨h2, h3⟩ := State.nextChar_waits e
    rw [hp] at h3
    subst h3
    exact .inr ⟨by simpa using h2, by simpa [eq_comm] using h⟩

/-! ## A step -/

/-- All that a step can do: nothing when HALTED, the environment's turn when the fetch waits, and otherwise
the issued instruction. -/
theorem step_eq_next {s t : State} (h : step s = .next t) :
    (s.running = false ∧ t = s) ∨
    (s.running = true ∧ s.stage = .fetch ∧ s.pc = kbdrAddr ∧ s.inputReady = false ∧
      t = { s with inp := s.inp.turn }) ∨
    (∃ i u, s.issued = some (i, u) ∧ exec i u = .next t) := by
  unfold step at h
  cases hr : s.running with
  | false =>
    simp only [hr, Bool.false_eq_true, if_false] at h
    exact .inl ⟨rfl, by simpa [haltedCycle, eq_comm] using h⟩
  | true =>
    simp only [hr, if_true] at h
    cases hs : s.stage with
    | fetch =>
      simp only [hs, beginCycle] at h
      cases e : s.fetch with
      | value w u =>
        rw [e] at h
        exact .inr (.inr ⟨_, _, by simp [State.issued, hr, hs, e], h⟩)
      | waits u =>
        rw [e] at h
        obtain ⟨h1, h2, h3⟩ := State.memRead_waits e
        have hu : u = t := by simpa using h
        exact .inr (.inl ⟨rfl, rfl, h1, h2, by rw [← hu, h3, hr, hs]⟩)
    | waiting =>
      simp only [hs] at h
      exact .inr (.inr ⟨_, _, by simp [State.issued, hr, hs], h⟩)
    | prompted =>
      simp only [hs] at h
      exact .inr (.inr ⟨_, _, by simp [State.issued, hr, hs], h⟩)

/-- All the ways an instruction is issued: fetched by an answered read, or latched in a cycle that goes
on. -/
theorem State.issued_eq_some {s u : State} {i : Instr} (h : s.issued = some (i, u)) :
    s.running = true ∧
    ((s.stage = .fetch ∧ ∃ w v, s.memRead s.pc = .value w v ∧ i = decode w ∧ u = v.latch w) ∨
     (s.stage ≠ .fetch ∧ i = decode s.ir ∧ u = s)) := by
  unfold State.issued at h
  cases hr : s.running with
  | false => simp [hr] at h
  | true =>
    simp only [hr, if_true] at h
    refine ⟨rfl, ?_⟩
    cases hs : s.stage with
    | fetch =>
      simp only [hs] at h
      cases e : s.fetch with
      | value w v =>
        simp only [e, Option.some.injEq, Prod.mk.injEq] at h
        exact .inl ⟨rfl, w, v, e, h.1.symm, h.2.symm⟩
      | waits v => simp [e] at h
    | waiting =>
      simp only [hs, Option.some.injEq, Prod.mk.injEq] at h
      exact .inr ⟨by simp, h.1.symm, h.2.symm⟩
    | prompted =>
      simp only [hs, Option.some.injEq, Prod.mk.injEq] at h
      exact .inr ⟨by simp, h.1.symm, h.2.symm⟩

/-! ## Runs -/

/-- A state a step leaves as it is stays so for any number of steps. -/
theorem run_of_step_self {s : State} (h : step s = .next s) (k : Nat) :
    Host.Core.run Sys2Proof.core k s = .next s := by
  have hs : Sys2Proof.core.step s = .next s := h
  induction k with
  | zero => rfl
  | succ k ih =>
    have e := Host.Core.run.eq_2 Sys2Proof.core s k
    rw [hs] at e
    exact e.trans ih

end Sys2Proof.Machine
end

