-- ==== Sys2Proof/Laws/Loader.lean ====
section
/-! SUPPORT. What the loader's functions do (70_reset_and_hazards.md R273, R274). -/

namespace Sys2Proof.Machine

/-- The words of a file that holds two bytes a word, the more significant first (R273). -/
theorem imageWords_flatMap (ws : List Word) :
    imageWords (ws.flatMap fun w => [w.extractLsb' 8 8, w.extractLsb' 0 8]) = some ws := by
  induction ws with
  | nil => rfl
  | cons w ws ih =>
    simp only [List.flatMap_cons, List.cons_append, List.nil_append, imageWords, ih, Option.map_some]
    congr 2
    apply BitVec.eq_of_getLsbD_eq
    intro i hi
    rw [BitVec.getLsbD_append]
    by_cases h : i < 8
    · simp [h]
    · simp [h, show i - 8 < 8 by omega, show 8 + (i - 8) = i by omega]

/-- The loader fails only by refusing an image with no origin or one that runs past the last address
(R275). -/
theorem loadImage_eq_some {base p : ResetParams} {ws : List Word} (h : loadImage base ws = some p) :
    ∃ origin body, ws = origin :: body ∧ origin.toNat + body.length ≤ memSize ∧
      p = { base with entryPc := origin, initMem := base.initMem.writeBlock origin.toNat body } := by
  cases ws with
  | nil => cases h
  | cons origin body =>
    simp only [loadImage] at h
    split at h
    · next hle => cases h; exact ⟨origin, body, rfl, hle, rfl⟩
    · cases h

end Sys2Proof.Machine
end

