-- ==== Sys2Proof/Laws/PerInstr.lean ====
section
/-! SUPPORT. Statements made instruction by instruction. Family `EncodedOpcode`: the top four bits of an
instruction's word are the number of its opcode (30_encoding.md R91, R92). -/

namespace Sys2Proof.Laws.EncodedOpcode

def Statement (i : Instr) : Prop := opcodeField (encode i) = i.opcode.bits

theorem br (n z p : Bool) (off9 : BitVec 9) : Statement (.br n z p off9) := by
  show opcodeField (encodeBr n z p off9) = _
  unfold encodeBr
  rw [BitVec.or_assoc, BitVec.or_assoc, BitVec.or_assoc]
  exact opcodeField_or (by simp [field_or, field_place_above])
theorem addReg (dr sr1 sr2 : RegIx) : Statement (.addReg dr sr1 sr2) := opcodeField_encodeOpr .add dr sr1 sr2
theorem addImm (dr sr1 : RegIx) (imm5 : BitVec 5) : Statement (.addImm dr sr1 imm5) := opcodeField_encodeOpi .add dr sr1 imm5
theorem ld (dr : RegIx) (off9 : BitVec 9) : Statement (.ld dr off9) := opcodeField_encodePc9 .ld dr off9
theorem st (sr : RegIx) (off9 : BitVec 9) : Statement (.st sr off9) := opcodeField_encodePc9 .st sr off9
theorem jsr (off11 : BitVec 11) : Statement (.jsr off11) := by
  show opcodeField (encodeJsr off11) = _
  unfold encodeJsr
  rw [BitVec.or_assoc]
  exact opcodeField_or (by simp [field_or, field_place_above])
theorem jsrr (b : RegIx) : Statement (.jsrr b) := opcodeField_encodeBase .jsr b
theorem andReg (dr sr1 sr2 : RegIx) : Statement (.andReg dr sr1 sr2) := opcodeField_encodeOpr .and dr sr1 sr2
theorem andImm (dr sr1 : RegIx) (imm5 : BitVec 5) : Statement (.andImm dr sr1 imm5) := opcodeField_encodeOpi .and dr sr1 imm5
theorem ldr (dr b : RegIx) (off6 : BitVec 6) : Statement (.ldr dr b off6) := opcodeField_encodeB6 .ldr dr b off6
theorem str (sr b : RegIx) (off6 : BitVec 6) : Statement (.str sr b off6) := opcodeField_encodeB6 .str sr b off6
theorem rti : Statement .rti := opcodeField_place .rti
theorem not (dr sr : RegIx) : Statement (.not dr sr) := by
  show opcodeField (encodeNot dr sr) = _
  unfold encodeNot
  rw [BitVec.or_assoc, BitVec.or_assoc]
  exact opcodeField_or (by simp [field_or, field_place_above])
theorem ldi (dr : RegIx) (off9 : BitVec 9) : Statement (.ldi dr off9) := opcodeField_encodePc9 .ldi dr off9
theorem sti (sr : RegIx) (off9 : BitVec 9) : Statement (.sti sr off9) := opcodeField_encodePc9 .sti sr off9
theorem jmp (b : RegIx) : Statement (.jmp b) := opcodeField_encodeBase .jmp b
theorem res : Statement .res := opcodeField_place .res
theorem lea (dr : RegIx) (off9 : BitVec 9) : Statement (.lea dr off9) := opcodeField_encodePc9 .lea dr off9
theorem trapGetc : Statement .trapGetc := opcodeField_encodeTrap 0x20#8
theorem trapOut : Statement .trapOut := opcodeField_encodeTrap 0x21#8
theorem trapPuts : Statement .trapPuts := opcodeField_encodeTrap 0x22#8
theorem trapIn : Statement .trapIn := opcodeField_encodeTrap 0x23#8
theorem trapPutsp : Statement .trapPutsp := opcodeField_encodeTrap 0x24#8
theorem trapHalt : Statement .trapHalt := opcodeField_encodeTrap 0x25#8
theorem trapOther (v : Byte) : Statement (.trapOther v) := opcodeField_encodeTrap v

end Sys2Proof.Laws.EncodedOpcode
end

