-- ==== Sys2Proof/Tests/Slice0.lean ====
section
/-! SUPPORT. The model's own tests. Expected results are those of 95_test_vectors.md (the vector's id stands
in each comment) or of the bit patterns of 30_encoding.md R92; none is the model's own answer. The last part
shows, for every statement of Obligations.lean with hypotheses, a state that meets them. -/

namespace Sys2Proof.Tests

open Sys2Proof.Machine

/-! ## Helpers -/

/-- The start state of 95_test_vectors.md: the word at 0x3000, everything else as at reset. -/
def start (w : Word) : State := { State.reset with mem := [(0x3000, w)] }

/-- The input stream with these bytes come. -/
def State.typed (s : State) (bs : List Byte) : State := { s with inp := { queue := bs, eof := false, env := [] } }

/-- The input stream at its end. -/
def State.atEof (s : State) : State := { s with inp := { queue := [], eof := true, env := [] } }

/-- Whether an outcome is a next state with a property. -/
def after (o : Host.Outcome State Fault Refusal) (p : State → Bool) : Bool :=
  match o with
  | .next t => p t
  | .fault _ => false
  | .refused _ => false

theorem next_of_after {o : Host.Outcome State Fault Refusal} {p : State → Bool} (h : after o p = true) :
    ∃ t, o = .next t ∧ p t = true := by
  cases o with
  | next t => exact ⟨t, rfl, h⟩
  | fault r => exact Bool.noConfusion h
  | refused r => exact Bool.noConfusion h

/-! ## Well-formedness: the one check refuses its ill-formed term -/

theorem test_wf_refuses_defined_vector : (Instr.trapOther 0x25#8).wf = false := by decide
theorem test_wf_refuses_first_vector : (Instr.trapOther 0x20#8).wf = false := by decide
theorem test_wf_accepts_next_vector : (Instr.trapOther 0x26#8).wf = true := by decide

/-! ## Decoding: one word for every constructor, from the formats of R92 -/

theorem test_decode_br : decode 0b0000_101_011001101#16 = .br true false true 0b011001101#9 := by decide
theorem test_decode_add_reg : decode 0b0001_001_010_0_00_011#16 = .addReg 1 2 3 := by decide
theorem test_decode_add_imm : decode 0b0001_110_011_1_10110#16 = .addImm 6 3 0b10110#5 := by decide
theorem test_decode_ld : decode 0b0010_011_100000001#16 = .ld 3 0b100000001#9 := by decide
theorem test_decode_st : decode 0b0011_101_011111110#16 = .st 5 0b011111110#9 := by decide
theorem test_decode_jsr : decode 0b0100_1_10000000001#16 = .jsr 0b10000000001#11 := by decide
theorem test_decode_jsrr : decode 0b0100_0_00_110_000000#16 = .jsrr 6 := by decide
theorem test_decode_and_reg : decode 0b0101_100_001_0_00_111#16 = .andReg 4 1 7 := by decide
theorem test_decode_and_imm : decode 0b0101_000_001_1_11111#16 = .andImm 0 1 0b11111#5 := by decide
theorem test_decode_ldr : decode 0b0110_011_001_100110#16 = .ldr 3 1 0b100110#6 := by decide
theorem test_decode_str : decode 0b0111_110_101_011001#16 = .str 6 5 0b011001#6 := by decide
theorem test_decode_rti : decode 0b1000_000000000000#16 = .rti := by decide
theorem test_decode_not : decode 0b1001_001_010_111111#16 = .not 1 2 := by decide
theorem test_decode_ldi : decode 0b1010_010_000000001#16 = .ldi 2 1#9 := by decide
theorem test_decode_sti : decode 0b1011_010_000000101#16 = .sti 2 5#9 := by decide
theorem test_decode_jmp : decode 0b1100_000_100_000000#16 = .jmp 4 := by decide
theorem test_decode_res : decode 0b1101_000000000000#16 = .res := by decide
theorem test_decode_lea : decode 0b1110_101_111111111#16 = .lea 5 0b111111111#9 := by decide
theorem test_decode_getc : decode 0b1111_0000_00100000#16 = .trapGetc := by decide
theorem test_decode_out : decode 0b1111_0000_00100001#16 = .trapOut := by decide
theorem test_decode_puts : decode 0b1111_0000_00100010#16 = .trapPuts := by decide
theorem test_decode_in : decode 0b1111_0000_00100011#16 = .trapIn := by decide
theorem test_decode_putsp : decode 0b1111_0000_00100100#16 = .trapPutsp := by decide
theorem test_decode_halt : decode 0b1111_0000_00100101#16 = .trapHalt := by decide
theorem test_decode_other : decode 0b1111_0000_00100110#16 = .trapOther 0x26#8 := by decide

/-! Words with set bits that the core ignores (V-A9, V-A18, V-J3, V-J11, V-T12), and words encoded. -/

theorem test_decode_ignores_opr : decode 0x129B#16 = .addReg 1 2 3 := by decide
theorem test_decode_ignores_not : decode 0x9280#16 = .not 1 2 := by decide
theorem test_decode_ignores_jmp : decode 0xCE3F#16 = .jmp 0 := by decide
theorem test_decode_ignores_jsrr : decode 0x46BF#16 = .jsrr 2 := by decide
theorem test_decode_ignores_trap : decode 0xFF25#16 = .trapHalt := by decide
theorem test_encode_words :
    encode (.addReg 1 2 3) = 0x1283#16 ∧ encode (.not 1 2) = 0x92BF#16 ∧ encode (.jmp 7) = 0xC1C0#16 ∧
    encode (.jsr 0x400#11) = 0x4C00#16 ∧ encode (.br false false true 0x1FD#9) = 0x03FD#16 := by decide
theorem test_decode_table_word : decodeTableWord 16 0x507F = some (.andImm 0 1 0x1F#5) := by decide

/-! ## Single steps -/

/-- V-B1: mask n z under ZERO is taken, under POSITIVE not. -/
theorem test_br : after (step (start 0x0C05#16)) (fun t => t.pc == 0x3006#16 && t.cond == .zero) = true ∧
    after (step { start 0x0C05#16 with cond := .positive }) (fun t => t.pc == 0x3001#16) = true := by decide
/-- V-B4: wrap at the top of memory. -/
theorem test_br_wrap :
    after (step { State.reset with pc := 0xFFFF#16, mem := [(0xFFFF, 0x0E01#16)] }) (fun t => t.pc == 0x0001#16) =
      true := by decide
/-- V-A1. -/
theorem test_add_reg : after (step (((start 0x1283#16).setReg 2 0x7FFF#16).setReg 3 0x0001#16))
    (fun t => t.reg 1 == 0x8000#16 && t.cond == .negative && t.pc == 0x3001#16) = true := by decide
/-- V-A4: the destination is both sources. -/
theorem test_add_reg_same : after (step ((start 0x1482#16).setReg 2 0x4000#16))
    (fun t => t.reg 2 == 0x8000#16 && t.cond == .negative) = true := by decide
/-- V-A8. -/
theorem test_add_imm : after (step ((start 0x1270#16).setReg 1 0x0010#16))
    (fun t => t.reg 1 == 0x0000#16 && t.cond == .zero) = true := by decide
/-- V-A11. -/
theorem test_and_reg : after (step (((start 0x5401#16).setReg 0 0xF0F0#16).setReg 1 0x0FF0#16))
    (fun t => t.reg 2 == 0x00F0#16 && t.cond == .positive) = true := by decide
/-- V-A14. -/
theorem test_and_imm : after (step ((start 0x56F0#16).setReg 3 0xABCD#16))
    (fun t => t.reg 3 == 0xABC0#16 && t.cond == .negative) = true := by decide
/-- V-A15. -/
theorem test_not : after (step ((start 0x927F#16).setReg 1 0x00FF#16))
    (fun t => t.reg 1 == 0xFF00#16 && t.cond == .negative) = true := by decide
/-- V-L1, and V-L2: the word at the instruction's own address. -/
theorem test_ld : after (step ((start 0x2202#16).setCell 0x3003#16 0xBEEF#16))
    (fun t => t.reg 1 == 0xBEEF#16 && t.cond == .negative) = true := by decide
theorem test_ld_self : after (step (start 0x23FF#16))
    (fun t => t.reg 1 == 0x23FF#16 && t.cond == .positive) = true := by decide
/-- V-L6. -/
theorem test_ldi : after (step (((start 0xA401#16).setCell 0x3002#16 0x4000#16).setCell 0x4000#16 0x8001#16))
    (fun t => t.reg 2 == 0x8001#16 && t.cond == .negative) = true := by decide
/-- V-M5: the second read waits. -/
theorem test_ldi_waits : after (step ((start 0xA401#16).setCell 0x3002#16 0xFE02#16))
    (fun t => t.pc == 0x3001#16 && t.reg 2 == 0#16 && t.stage == .waiting && t.trace == []) = true := by decide
/-- V-L8: the address wraps. -/
theorem test_ldr : after (step ((start 0x667F#16).setCell 0xFFFF#16 0x8000#16))
    (fun t => t.reg 3 == 0x8000#16 && t.cond == .negative) = true := by decide
/-- V-L11: the base is the destination. -/
theorem test_ldr_same : after (step (((start 0x6000#16).setReg 0 0x5000#16).setCell 0x5000#16 0x1111#16))
    (fun t => t.reg 0 == 0x1111#16 && t.cond == .positive) = true := by decide
/-- V-L14. -/
theorem test_lea : after (step { State.reset with pc := 0xFFFF#16, cond := .positive, mem := [(0xFFFF, 0xE000#16)] })
    (fun t => t.reg 0 == 0#16 && t.pc == 0#16 && t.cond == .zero) = true := by decide
/-- V-S2: the word overwrites its own address after it was fetched. -/
theorem test_st : after (step ((start 0x33FF#16).setReg 1 0xABCD#16))
    (fun t => t.cell 0x3000#16 == 0xABCD#16 && t.ir == 0x33FF#16 && t.cond == .zero) = true := by decide
/-- V-S8: only bit 15 of the word stored to MCR matters. -/
theorem test_sti_halts : after (step (((start 0xB405#16).setReg 2 0x7FFF#16).setCell 0x3006#16 0xFFFE#16))
    (fun t => t.cell 0xFFFE#16 == 0x7FFF#16 && !t.running) = true := by decide
/-- V-M7. -/
theorem test_sti_emits : after (step (((start 0xB405#16).setReg 2 0x1241#16).setCell 0x3006#16 0xFE06#16))
    (fun t => t.cell 0xFE06#16 == 0x1241#16 && t.trace == [.out 0x41#8] && t.running) = true := by decide
/-- V-S5b. -/
theorem test_str : after (step ((start 0x767F#16).setReg 3 0x0077#16))
    (fun t => t.cell 0xFFFF#16 == 0x0077#16 && t.cond == .zero) = true := by decide
/-- V-J1. -/
theorem test_jmp : after (step { (start 0xC080#16).setReg 2 0x4000#16 with cond := .negative })
    (fun t => t.pc == 0x4000#16 && t.cond == .negative) = true := by decide
/-- V-J6. -/
theorem test_jsr : after (step (start 0x4C00#16)) (fun t => t.reg 7 == 0x3001#16 && t.pc == 0x2C01#16) = true := by
  decide
/-- V-J9, and V-J10: JSRR R7 falls through. -/
theorem test_jsrr : after (step ((start 0x4080#16).setReg 2 0x5000#16))
    (fun t => t.reg 7 == 0x3001#16 && t.pc == 0x5000#16) = true := by decide
theorem test_jsrr_r7 : after (step ((start 0x41C0#16).setReg 7 0x5000#16))
    (fun t => t.reg 7 == 0x3001#16 && t.pc == 0x3001#16) = true := by decide
/-- V-R1. -/
theorem test_rti : after (step { (start 0x8000#16).setReg 6 0x1234#16 with cond := .negative })
    (fun t => t.pc == 0x3001#16 && t.reg 6 == 0x1234#16 && t.cond == .negative && t.running) = true := by decide
/-- V-R4. -/
theorem test_res : after (step { start 0xDABC#16 with cond := .positive })
    (fun t => t.pc == 0x3001#16 && t.cond == .positive && t.running) = true := by decide
/-- V-T1, V-T2. -/
theorem test_getc : after (step { State.typed ((start 0xF020#16).setReg 0 0xFFFF#16) [0x61#8, 0x62#8] with cond := .negative })
    (fun t => t.reg 0 == 0x0061#16 && t.cond == .negative && t.inp.queue == [0x62#8] && t.trace == [.inChar 0x61#8]) =
      true := by decide
theorem test_getc_eof : after (step (State.atEof (start 0xF020#16)))
    (fun t => t.reg 0 == 0xFFFF#16 && t.running && t.trace == [.inEof]) = true := by decide
/-- V-T5. -/
theorem test_out : after (step ((start 0xF021#16).setReg 0 0x1241#16))
    (fun t => t.trace == [.out 0x41#8] && t.cell 0xFE06#16 == 0#16) = true := by decide
/-- V-T6b, V-T7. -/
theorem test_puts : after (step ((((start 0xF022#16).setReg 0 0x4000#16).setCell 0x4000#16 0x0100#16).setCell
    0x4001#16 0x1241#16)) (fun t => t.trace == [.out 0x00#8, .out 0x41#8] && t.reg 0 == 0x4000#16) = true := by decide
theorem test_puts_end : after (step (((((start 0xF022#16).setReg 0 0xFFFE#16).setCell 0xFFFE#16 0x0058#16).setCell
    0xFFFF#16 0x0059#16).setCell 0x0000#16 0x005A#16)) (fun t => t.trace == [.out 0x58#8, .out 0x59#8]) = true := by
  decide
/-- V-T8 with a one-byte prompt in place of the default one (R204 has it open). -/
theorem test_in : after (step { State.typed (start 0xF023#16) [0x78#8] with
      params := { defaultParams with inPrompt := [0x3E#8] } })
    (fun t => t.reg 0 == 0x0078#16 && t.trace == [.out 0x3E#8, .inChar 0x78#8, .out 0x78#8]) = true := by decide
/-- V-T8c. -/
theorem test_in_waits : after (step (start 0xF023#16))
    (fun t => t.stage == .prompted && t.out.length == 19 && t.reg 0 == 0#16 && t.pc == 0x3001#16) = true := by decide
/-- V-T9. -/
theorem test_putsp : after (step ((((start 0xF024#16).setReg 0 0x4000#16).setCell 0x4000#16 0x4100#16).setCell
    0x4001#16 0x0042#16)) (fun t => t.trace == [.out 0x00#8, .out 0x41#8, .out 0x42#8]) = true := by decide
/-- V-T11. -/
theorem test_halt : after (step ((start 0xF025#16).setReg 0 0x0001#16))
    (fun t => !t.running && t.pc == 0x3001#16 && t.cell 0xFFFE#16 == 0#16 && t.trace == []) = true := by decide
/-- V-T13. -/
theorem test_trap_other : after (step { (start 0xF026#16).setReg 7 0x7777#16 with cond := .negative })
    (fun t => t.pc == 0x3001#16 && t.reg 7 == 0x7777#16 && t.cond == .negative) = true := by decide
/-- V-M14, V-M15: the fetch itself at a device address. -/
theorem test_fetch_waits : after (step { State.reset with pc := 0xFE02#16 })
    (fun t => t.pc == 0xFE02#16 && t.stage == .fetch && t.trace == []) = true := by decide
theorem test_fetch_device : after (step { State.reset with pc := 0xFE04#16, mem := [(0xFE04, 0xF025#16)] })
    (fun t => t.ir == 0x8000#16 && t.running && t.pc == 0xFE05#16) = true := by decide
/-- V-I1: the bytes 40 00 F0 25. -/
theorem test_image : (State.resetWithImage defaultResetParams State.reset.inp [0x40#8, 0x00#8, 0xF0#8, 0x25#8]).map
    (fun s => (s.pc, s.cell 0x4000#16, s.running)) = some (0x4000#16, 0xF025#16, true) := by decide
/-- V-C2, V-C1. -/
theorem test_sext : sext16 0x10#5 = 0xFFF0#16 ∧ sext16 0x1F#6 = 0x001F#16 ∧ sext16 0x100#9 = 0xFF00#16 ∧
    sext16 0x400#11 = 0xFC00#16 := by decide
theorem test_flags : flagOf 0x7FFF#16 = .positive ∧ flagOf 0x8000#16 = .negative ∧ flagOf 0#16 = .zero := by decide

/-! ## Witnesses: the hypotheses of the statements are met

`reset` meets every hypothesis on `running` and `stage`; `waitingState` waits for input. -/

/-- A GETC cycle that waits at 0x3001. -/
def waitingState : State := { start 0xF020#16 with pc := 0x3001#16, ir := 0xF020#16, stage := .waiting }
/-- An IN cycle that waits, its prompt out. -/
def promptedWait : State := { start 0xF023#16 with pc := 0x3001#16, ir := 0xF023#16, stage := .prompted }
/-- A state in which `STI SR, #0` reads its pointer from the keyboard data register. -/
def stiAtKbdr : State := { State.reset with pc := 0xFE02#16 }

theorem witness_ImageLoadsAtItsOrigin :
    (0xFFFF#16).toNat + [0x1234#16].length ≤ 65536 ∧ (0#16).toNat < (0xFFFF#16).toNat ∧
    (0x3000#16).toNat + [0x1234#16].length ≤ (0x3001#16).toNat := by decide
theorem witness_InvariantAtReset : defaultResetParams.initMem.wf = true ∧
    State.resetWithImage defaultResetParams State.reset.inp [0x30#8, 0x00#8, 0x12#8, 0x34#8] =
      some { State.reset with mem := [(0x3000, 0x1234#16)] } := by decide
theorem witness_DecodeOfEncode : (Instr.trapOther 0x1F#8).wf = true ∧ (Instr.br true true true 0x1FF#9).wf = true := by
  decide
theorem witness_DecodeFollowsTheOpcodeTable :
    0xF025#16 &&& Instr.trapHalt.tableRow.1 = Instr.trapHalt.tableRow.2 ∧
    0xF025#16 &&& (Instr.trapOther 0#8).tableRow.1 = (Instr.trapOther 0#8).tableRow.2 := by decide
theorem witness_SignExtensionKeepsTheValue :
    5 ∈ [5, 6, 9, 11] ∧ 11 ∈ [5, 6, 9, 11] ∧ (0x0F#5).getLsbD 4 = false ∧ (0x10#5).getLsbD 4 = true ∧
    (0x3FF#11).getLsbD 10 = false ∧ (0x400#11).getLsbD 10 = true := by decide
theorem witness_MemReadAnswersByAddress_plain :
    0xFE06#16 ≠ 0xFE00#16 ∧ 0xFE06#16 ≠ 0xFE02#16 ∧ 0xFE06#16 ≠ 0xFE04#16 := by decide
theorem witness_ReadsTouchOnlyTheStreams :
    State.reset.memRead 0x3000#16 = .value 0#16 State.reset ∧
    State.reset.memRead 0xFE02#16 = .waits State.reset := by decide
theorem witness_MemWriteStoresEverywhere : 0xFFFF#16 ≠ 0xFFFE#16 := by decide
theorem witness_ControlRegisterWriteHalts :
    (((start 0x7240#16).setReg 1 0xFFFE#16).issued =
      some (.str 1 1 0#6, ((start 0x7240#16).setReg 1 0xFFFE#16).latch 0x7240#16)) ∧
    (((start 0x7240#16).setReg 1 0xFFFE#16).latch 0x7240#16).storeOf (.str 1 1 0#6) = some (0xFFFE#16, 0xFFFE#16) := by
  decide
theorem witness_EnvironmentOnlyAppends : (State.atEof State.reset).inp.eof = true := by decide
/-- A key after an end of input within one turn does not arrive (R33). -/
theorem test_turn_key_after_end :
    ({ queue := [], eof := false, env := [.key 0x61#8, .endOfInput, .key 0x62#8, .pass, .key 0x63#8] } :
      InputStream).turn = { queue := [0x61#8], eof := true, env := [.key 0x63#8] } := by decide
theorem witness_PollAnswersWithoutConsuming :
    (State.typed State.reset [0x61#8]).inp.turn.queue ≠ [] ∧
    (State.reset.inp.turn.queue = [] ∧ State.reset.inp.turn.eof = false) ∧
    ((State.atEof State.reset).inp.turn.queue = [] ∧ (State.atEof State.reset).inp.turn.eof = true) := by decide
theorem witness_ReadAfterPositivePollDoesNotWait :
    (State.typed State.reset [0x61#8]).memRead 0xFE00#16 =
      .value 0x8000#16 (State.typed State.reset [0x61#8]).polled ∧
    (State.atEof State.reset).memRead 0xFE00#16 = .value 0x8000#16 (State.atEof State.reset).polled := by decide
theorem witness_NextCharTakesTheHead :
    (State.typed State.reset [0xE9#8]).inp.turn.queue = [0xE9#8] ∧
    ((State.atEof State.reset).inp.turn.queue = [] ∧ (State.atEof State.reset).inp.turn.eof = true) ∧
    (State.reset.inp.turn.queue = [] ∧ State.reset.inp.turn.eof = false) := by decide
theorem witness_BranchEffect :
    (true = true ∧ ({ State.reset with cond := .negative } : State).cond = .negative) ∧
    (true = true ∧ State.reset.cond = .zero) ∧
    (true = true ∧ ({ State.reset with cond := .positive } : State).cond = .positive) ∧
    ¬ ((true = true ∧ State.reset.cond = .negative) ∨ (false = true ∧ State.reset.cond = .zero) ∨
      (true = true ∧ State.reset.cond = .positive)) := by decide
theorem witness_LoadEffect_ld :
    State.reset.readable (pcRelative State.reset.pc 2#9) = true ∧
    (State.typed { State.reset with pc := 0xFE02#16 } [0x61#8]).readable (pcRelative 0xFE02#16 0#9) = true := by decide
theorem witness_LoadEffect_ldr :
    State.reset.readable (baseOffset (State.reset.reg 1) 0x3F#6) = true ∧
    (State.atEof (State.reset.setReg 1 0xFE02#16)).readable (baseOffset 0xFE02#16 0#6) = true := by decide
theorem witness_LoadIndirectEffect :
    (State.reset.setCell 0x3001#16 0x4000#16).memRead (pcRelative 0x3000#16 1#9) =
      .value 0x4000#16 (State.reset.setCell 0x3001#16 0x4000#16) ∧
    (State.reset.setCell 0x3001#16 0x4000#16).readable 0x4000#16 = true := by decide
theorem witness_LoadIndirectEffect_device :
    (State.typed (State.reset.setCell 0x3001#16 0xFE02#16) [0x61#8]).memRead (pcRelative 0x3000#16 1#9) =
      .value 0xFE02#16 (State.typed (State.reset.setCell 0x3001#16 0xFE02#16) [0x61#8]) ∧
    (State.typed (State.reset.setCell 0x3001#16 0xFE02#16) [0x61#8]).readable 0xFE02#16 = true := by decide
theorem witness_StoreIndirectEffect :
    State.reset.readable (pcRelative State.reset.pc 5#9) = true ∧
    (State.typed stiAtKbdr [0x61#8]).readable (pcRelative stiAtKbdr.pc 0#9) = true := by decide
theorem witness_ReservedInstructionsDoNothing :
    (0x1F#8).toNat < 0x20 ∧ 0x25 < (0x26#8).toNat ∧ (0x00#8).toNat < 0x20 ∧ 0x25 < (0xFF#8).toNat := by decide
theorem witness_GetcEffect : (State.typed State.reset [0x61#8]).inputReady = true ∧
    (State.atEof State.reset).inputReady = true := by decide
theorem witness_InPromptsReadsEchoes : (State.typed promptedWait [0x78#8]).inputReady = true ∧
    (State.typed State.reset [0x78#8]).inputReady = true ∧ State.reset.inputReady = false ∧
    promptedWait.inputReady = false := by decide
theorem witness_StepRunsTheDecodedInstruction_fetched :
    State.reset.running = true ∧ State.reset.stage = .fetch ∧
    State.reset.memRead State.reset.pc = .value 0#16 State.reset ∧ State.reset.pc ≠ 0xFE00#16 ∧
    State.reset.pc ≠ 0xFE02#16 ∧ State.reset.pc ≠ 0xFE04#16 := by decide
theorem witness_StepRunsTheDecodedInstruction_device :
    ({ State.reset with pc := 0xFE04#16 } : State).memRead 0xFE04#16 =
      .value 0x8000#16 { State.reset with pc := 0xFE04#16 } := by decide
theorem witness_WaitingCyclesGoOn_latched :
    waitingState.running = true ∧ waitingState.stage ≠ .fetch := by decide
theorem witness_StepRunsTheDecodedInstruction_halted :
    ({ State.reset with running := false } : State).running = false ∧
    after (step { State.reset with running := false }) (fun t => !t.running && t.pc == 0x3000#16) = true := by decide
theorem witness_WaitingCyclesGoOn_fetch :
    ({ State.reset with pc := 0xFE02#16 } : State).memRead 0xFE02#16 = .waits { State.reset with pc := 0xFE02#16 } ∧
    State.reset.running = true ∧ State.reset.stage = .fetch := by decide
theorem witness_NoOpCycleOnlyAdvances :
    readIntercepted State.reset.pc = false ∧ (start 0x8FFF#16).cell 0x3000#16 &&& 0xF000#16 = 0x8000#16 ∧
    (start 0xDABC#16).cell 0x3000#16 &&& 0xF000#16 = 0xD000#16 ∧
    (start 0x01FF#16).cell 0x3000#16 &&& 0xFE00#16 = 0x0000#16 := by decide
theorem witness_PlacedWordRunsNext : 0xFFFF < 65536 ∧ readIntercepted State.reset.pc = false ∧
    readIntercepted 0xFE02#16 = true := by decide

/-- ST R1, #0 at 0x3000 stores over the very next word: `issued`, `storeOf`, the step and the pc. -/
theorem witness_StoreIsSeenByTheNextFetch :
    ((start 0x3200#16).setReg 1 0x1021#16).issued =
      some (.st 1 0#9, ((start 0x3200#16).setReg 1 0x1021#16).latch 0x3200#16) ∧
    (((start 0x3200#16).setReg 1 0x1021#16).latch 0x3200#16).storeOf (.st 1 0#9) = some (0x3001#16, 0x1021#16) ∧
    readIntercepted 0x3001#16 = false ∧
    after (step ((start 0x3200#16).setReg 1 0x1021#16)) (fun t => t.running && t.pc == 0x3001#16) = true := by decide
theorem witness_HaltedIsTerminal :
    (start 0xF025#16).running = true ∧ after (step (start 0xF025#16)) (fun t => !t.running) = true ∧
    (start 0xF025#16).issued = some (.trapHalt, (start 0xF025#16).latch 0xF025#16) := by decide
theorem witness_HaltedIsTerminal_mcr :
    (((start 0x7240#16).setReg 1 0xFFFE#16).latch 0x7240#16).storeOf (.str 1 1 0#6) = some (0xFFFE#16, 0xFFFE#16) ∧
    (((start 0x7040#16).setReg 1 0xFFFE#16).latch 0x7040#16).storeOf (.str 0 1 0#6) = some (0xFFFE#16, 0#16) ∧
    (0#16).getLsbD 15 = false ∧ (0xFFFE#16).getLsbD 15 = true := by decide
theorem witness_HaltedIsTerminal_halted : ({ State.reset with running := false } : State).running = false ∧
    after (Host.Core.run Sys2Proof.core 2 { State.reset with running := false }) (fun t => !t.running) = true := by
  decide
theorem witness_WaitingHasNoEffect :
    ∃ t, exec .trapGetc State.reset = .next t ∧ (t.stage != .fetch) = true := next_of_after (by decide)
theorem witness_InstructionsCompleteGivenInput :
    Instr.res.mayWait = false ∧ (State.typed waitingState [0x61#8]).inputReady = true ∧
    State.reset.awaitsInput .trapGetc = true ∧ State.reset.inputReady = false ∧
    State.reset.awaitsInput (.ld 0 0#9) = false := by decide
theorem witness_ReadersWaitWithoutInput :
    stiAtKbdr.readable (pcRelative stiAtKbdr.pc 0#9) = false ∧
    (State.reset.setReg 1 0xFE02#16).readable (baseOffset ((State.reset.setReg 1 0xFE02#16).reg 1) 0#6) = false ∧
    State.reset.inputReady = false ∧
    (stiAtKbdr.running = true ∧ stiAtKbdr.stage = .fetch ∧ stiAtKbdr.readable stiAtKbdr.pc = false) := by decide
theorem witness_ReadersWaitWithoutInput_second_read :
    (State.reset.setCell 0x3001#16 0xFE02#16).memRead (pcRelative State.reset.pc 1#9) =
      .value 0xFE02#16 (State.reset.setCell 0x3001#16 0xFE02#16) ∧
    (State.reset.setCell 0x3001#16 0xFE02#16).readable 0xFE02#16 = false := by decide
theorem witness_WaitWithoutInputNeverEnds :
    (waitingState.inv = true ∧ waitingState.stage ≠ .fetch ∧ waitingState.inp.env = []) ∧
    (promptedWait.inv = true ∧ promptedWait.stage ≠ .fetch ∧ promptedWait.inp.env = []) := by decide
theorem witness_ArrivalEndsTheWait :
    ({ promptedWait with inp := { queue := [], eof := false, env := [.key 0x61#8, .pass] } } : State).inv = true ∧
    promptedWait.stage ≠ .fetch := by decide
theorem witness_StepKeepsTheInvariant :
    ∃ t, step (start 0xF020#16) = .next t ∧ (start 0xF020#16).inv = true ∧ (t.stage == .waiting && t.inv) = true := by
  obtain ⟨t, h1, h2⟩ := next_of_after (o := step (start 0xF020#16)) (p := fun t => t.stage == .waiting && t.inv)
    (by decide)
  exact ⟨t, h1, by decide, h2⟩
theorem witness_RegistersWrittenOnlyAsNamed :
    ∃ t, exec (.addImm 1 1 1#5) State.reset = .next t ∧ (t.reg 1 == 1#16) = true := next_of_after (by decide)
theorem witness_FlagsWrittenBySevenReadByBranch :
    (∃ t, exec (.jmp 1) State.reset = .next t ∧ (t.pc == 0#16) = true) ∧ (Instr.jmp 1).opcode.setsFlags = false ∧
    (Instr.jmp 1).opcode ≠ .br ∧ (Instr.not 1 2).opcode.setsFlags = true ∧
    ∃ t, exec (.not 1 2) State.reset = .next t ∧ (t.stage == .fetch) = true :=
  ⟨next_of_after (by decide), by decide, by decide, by decide, next_of_after (by decide)⟩
theorem witness_PcWrittenOnlyByTransfers :
    State.reset.issued = some (.br false false false 0#9, State.reset.latch 0#16) ∧
    (start 0x1021#16).issued = some (.addImm 0 0 1#5, (start 0x1021#16).latch 0x1021#16) ∧
    (start 0x1021#16).stage = .fetch ∧ (Instr.addImm 0 0 1#5).opcode.writesPc = false ∧
    after (step (start 0x1021#16)) (fun t => t.pc == 0x3001#16) = true := by decide
theorem witness_MemoryWrittenOnlyByStores :
    (∃ t, exec (.st 1 0#9) State.reset = .next t ∧ (t.cell 0x4000#16 == 0#16) = true) ∧
    State.reset.storeOf (.st 1 0#9) = some (0x3000#16, 0#16) ∧ 0x4000#16 ≠ 0x3000#16 :=
  ⟨next_of_after (by decide), by decide, by decide⟩
theorem witness_TraceOnlyGrows : ∃ t, step (start 0xF021#16) = .next t ∧ (t.trace == [.out 0x00#8]) = true :=
  next_of_after (by decide)
theorem witness_InputIsConsumedInOrder :
    (∃ t, step (State.typed (start 0xF020#16) [0x61#8, 0x62#8]) = .next t ∧ (t.inp.queue == [0x62#8]) = true) ∧
    (∃ t, step (State.atEof (start 0xF020#16)) = .next t ∧ (t.trace == [.inEof]) = true) ∧
    (State.atEof (start 0xF020#16)).inp.eof = true :=
  ⟨next_of_after (by decide), next_of_after (by decide), by decide⟩
theorem witness_InputSeenOnlyByReaders :
    Instr.trapPuts.mayWait = false ∧ ∃ t, exec .trapPuts State.reset = .next t ∧ (t.trace == []) = true :=
  ⟨by decide, next_of_after (by decide)⟩

end Sys2Proof.Tests
end

/-! SUPPORT. Proofs of the statements about the machine's state (10_state.md): who writes the registers, the
flags, the pc and the streams, and what the streams answer. -/

namespace Sys2Proof.Machine

/-! ## Reset -/

/-- Settles O1: each field of `State.resetWith` is its argument. -/
theorem resetGivesTheParameters : Obligations.ResetGivesTheParameters := fun _ _ =>
  ⟨rfl, rfl, fun _ => rfl, fun _ => rfl, rfl, rfl, rfl⟩

/-- Between cycles the invariant asks only for canonical memory. -/
theorem State.inv_of_fetch {s : State} (hstage : s.stage = .fetch) (hmem : s.mem.wf = true) : s.inv = true := by
  simp [State.inv, State.stageOk, hstage, hmem]

/-- A state an image gives is a reset with the parameters the loader made of it (70_reset_and_hazards.md R274). -/
theorem State.resetWithImage_eq_some {base : ResetParams} {inp : InputStream} {bytes : List Byte} {s : State}
    (h : State.resetWithImage base inp bytes = some s) :
    ∃ ws p, imageWords bytes = some ws ∧ loadImage base ws = some p ∧ State.resetWith p inp = s := by
  obtain ⟨ws, hws, hload⟩ := Option.bind_eq_some_iff.1 h
  obtain ⟨p, hp, hs⟩ := Option.map_eq_some_iff.1 hload
  exact ⟨ws, p, hws, hp, hs⟩

/-- An accepted image keeps memory canonical. -/
theorem loadImage_wf {base p : ResetParams} {ws : List Word} (hbase : base.initMem.wf = true)
    (h : loadImage base ws = some p) : p.initMem.wf = true := by
  obtain ⟨origin, body, -, hfits, rfl⟩ := loadImage_eq_some h
  exact Memory.wf_writeBlock body base.initMem origin.toNat hfits hbase

/-- Settles O3: at reset the core is between cycles, and the loader keeps memory canonical. -/
theorem invariantAtReset : Obligations.InvariantAtReset := by
  refine ⟨fun p inp hp => State.inv_of_fetch rfl hp, fun base inp bytes s hbase hs => ?_,
    State.inv_of_fetch rfl rfl⟩
  obtain ⟨ws, p, -, hload, rfl⟩ := State.resetWithImage_eq_some hs
  exact State.inv_of_fetch rfl (loadImage_wf hbase hload)

/-! ## The environment's turn (R33) -/

/-- Once EOF is set the turn brings nothing. -/
theorem envTurn_queue_of_eof (env : List EnvAct) (q : List Byte) : (envTurn env q true).queue = q := by
  obtain ⟨arrived, hq, hnone, -⟩ := envTurn_spec env q true
  rw [hq, hnone rfl, List.append_nil]

/-- With EOF clear, what joins the queue is the bytes of the turn before its first end of input. -/
theorem envTurn_queue_of_open (env : List EnvAct) (q : List Byte) :
    (envTurn env q false).queue =
      q ++ (((env.takeWhile (· != .pass)).takeWhile (· != .endOfInput)).filterMap EnvAct.byte) := by
  induction env generalizing q with
  | nil => simp [envTurn]
  | cons act env ih =>
    cases act with
    | pass => simp [envTurn]
    | endOfInput => simp [envTurn, envTurn_queue_of_eof]
    | key b => simp [envTurn, ih, EnvAct.byte]

/-- EOF after the turn: set before it or by one of its actions. -/
theorem envTurn_eof (env : List EnvAct) (q : List Byte) (e : Bool) :
    (envTurn env q e).eof = true ↔ e = true ∨ EnvAct.endOfInput ∈ env.takeWhile (· != .pass) := by
  induction env generalizing q e with
  | nil => simp [envTurn]
  | cons act env ih => cases act <;> simp [envTurn, ih]

/-- The actions left are those after the turn's. -/
theorem envTurn_env (env : List EnvAct) (q : List Byte) (e : Bool) :
    (envTurn env q e).env = (env.dropWhile (· != .pass)).drop 1 := by
  induction env generalizing q e with
  | nil => rfl
  | cons act env ih => cases act <;> simp [envTurn, ih]

theorem InputStream.turn_env_length_le (i : InputStream) : i.turn.env.length ≤ i.env.length := by
  have hdrop := (List.dropWhile_suffix (p := (· != EnvAct.pass)) (l := i.env)).length_le
  rw [InputStream.turn, envTurn_env, List.length_drop]
  omega

/-- Settles O17, by induction on the coming actions, up to the end of the turn. -/
theorem environmentOnlyAppends : Obligations.EnvironmentOnlyAppends := by
  refine ⟨fun i => ?_, fun i => ⟨?_, envTurn_eof i.env i.queue i.eof, envTurn_env i.env i.queue i.eof⟩⟩
  · obtain ⟨arrived, hq, hnone, heof⟩ := i.turn_spec
    exact ⟨arrived, hq, hnone, heof, i.turn_env_length_le⟩
  · unfold InputStream.turn
    cases i.eof with
    | true => simpa using envTurn_queue_of_eof i.env i.queue
    | false => exact envTurn_queue_of_open i.env i.queue

/-! ## KeyPending and NextChar (R35, R36) -/

@[simp] theorem pendingIn_of_queue_ne_nil {p : Params} {i : InputStream} (h : i.queue ≠ []) :
    pendingIn p i = true := if_neg h

@[simp] theorem pendingIn_of_queue_nil {p : Params} {i : InputStream} (h : i.queue = []) :
    pendingIn p i = (i.eof && p.eofKeyPending) := if_pos h

/-- A poll is true only with input there to read. -/
theorem State.inputReady_of_keyPending {s : State} (h : s.keyPending = true) : s.inputReady = true := by
  rw [State.inputReady_iff]
  by_cases hq : s.inp.turn.queue = []
  · right
    rw [State.keyPending, pendingIn_of_queue_nil hq, Bool.and_eq_true] at h
    exact h.1
  · exact .inl hq

/-- Settles O18, by the cases of `pendingIn`. -/
theorem pollAnswersWithoutConsuming : Obligations.PollAnswersWithoutConsuming := fun s =>
  ⟨pendingIn_of_queue_ne_nil, fun hq he => by simp [State.keyPending, hq, he],
    fun hq he => by simp [State.keyPending, hq, he], rfl⟩

/-- A poll read as 0x8000 was true. -/
theorem State.memRead_kbsr_ready {s u : State} (h : s.memRead kbsrAddr = .value readyWord u) :
    s.keyPending = true ∧ u = s.polled := by
  cases hk : s.keyPending <;> simp [State.memRead, hk, readyWord] at h
  exact ⟨rfl, h.symm⟩

/-- Settles O19: a true poll saw a character or the end of input, and neither goes away by itself. -/
theorem readAfterPositivePollDoesNotWait : Obligations.ReadAfterPositivePollDoesNotWait := by
  rintro s u t hpoll ⟨more, hqueue⟩ heof
  obtain ⟨hkey, rfl⟩ := State.memRead_kbsr_ready hpoll
  have hseen := s.inputReady_iff.1 (State.inputReady_of_keyPending hkey)
  have hthere : t.inp.queue ≠ [] ∨ t.inp.eof = true :=
    hseen.imp (fun hq => by simp [hqueue, hq]) heof
  have hready : t.inputReady = true := t.inputReady_iff.2 (InputStream.turn_keeps_input hthere)
  exact State.memRead_of_readable (by simp [State.readable, hready])

/-- Zero extension puts a zero byte before the character. -/
theorem zext16_eq_append (c : Byte) : zext16 c = 0x00#8 ++ c := BitVec.setWidth_eq_append (by omega)

/-- With a character queued, `NextChar()` takes it. -/
theorem State.nextChar_of_head {s : State} {c : Byte} {rest : List Byte} (hq : s.inp.turn.queue = c :: rest) :
    s.nextChar = .value (zext16 c)
      { s with inp := { s.inp.turn with queue := rest }, trace := s.trace ++ [.inChar c] } := by
  rcases s.nextChar_cases with ⟨c', rest', hq', e⟩ | ⟨hq', -⟩ | ⟨hq', -⟩ <;> rw [hq] at hq'
  · cases hq'; exact e
  · cases hq'
  · cases hq'

/-- With nothing queued at end of input, `NextChar()` gives the sentinel. -/
theorem State.nextChar_of_eof {s : State} (hq : s.inp.turn.queue = []) (he : s.inp.turn.eof = true) :
    s.nextChar =
      .value s.params.eofSentinel { s with inp := s.inp.turn, trace := s.trace ++ [.inEof] } := by
  rcases s.nextChar_cases with ⟨c, rest, hq', -⟩ | ⟨-, -, e⟩ | ⟨-, he', -⟩
  · simp [hq] at hq'
  · exact e
  · simp [he] at he'

/-- At end of input the environment's turn leaves the queue and EOF. -/
theorem InputStream.turn_of_eof {i : InputStream} (he : i.eof = true) :
    i.turn.queue = i.queue ∧ i.turn.eof = true := by
  obtain ⟨arrived, hq, hnone, heof⟩ := i.turn_spec
  exact ⟨by rw [hq, hnone he, List.append_nil], heof he⟩

/-- Settles O20, by the three cases of `NextChar()`. -/
theorem nextCharTakesTheHead : Obligations.NextCharTakesTheHead := by
  refine fun s => ⟨fun c rest hq => ?_, fun hq he => ?_, fun hq he => ?_⟩
  · exact ⟨_, zext16_eq_append c ▸ State.nextChar_of_head hq, rfl, rfl, rfl⟩
  · obtain ⟨hq', he'⟩ := InputStream.turn_of_eof he
    exact ⟨_, State.nextChar_of_eof hq he, hq, he, rfl, _, State.nextChar_of_eof (hq'.trans hq) he'⟩
  · exact State.nextChar_of_not_ready (s.inputReady_eq_false_iff.2 ⟨hq, he⟩)

/-! ## How the streams flow (R33, R36 to R38)

What every operation of the core does to the trace and the input stream, as one reflexive and transitive
relation. -/

/-- From `s` to `t` the trace has grown by events that record, in order, the bytes taken from the head of IN;
what arrived is at IN's tail; and after EOF nothing arrives. -/
def InputFlow (s t : State) : Prop :=
  ∃ new arrived, t.trace = s.trace ++ new ∧
    s.inp.queue ++ arrived = new.filterMap Event.inByte ++ t.inp.queue ∧
    (s.inp.eof = true → arrived = [] ∧ t.inp.eof = true)

theorem InputFlow.refl (s : State) : InputFlow s s := ⟨[], [], by simp⟩

theorem InputFlow.trans {s u t : State} (h₁ : InputFlow s u) (h₂ : InputFlow u t) : InputFlow s t := by
  obtain ⟨new₁, arr₁, htr₁, hq₁, he₁⟩ := h₁
  obtain ⟨new₂, arr₂, htr₂, hq₂, he₂⟩ := h₂
  refine ⟨new₁ ++ new₂, arr₁ ++ arr₂, by rw [htr₂, htr₁, List.append_assoc], ?_, fun he => ?_⟩
  · calc s.inp.queue ++ (arr₁ ++ arr₂)
        = new₁.filterMap Event.inByte ++ (u.inp.queue ++ arr₂) := by
          rw [← List.append_assoc, hq₁, List.append_assoc]
      _ = (new₁ ++ new₂).filterMap Event.inByte ++ t.inp.queue := by
          rw [hq₂, List.filterMap_append, List.append_assoc]
  · obtain ⟨harr₁, heu⟩ := he₁ he
    obtain ⟨harr₂, het⟩ := he₂ heu
    exact ⟨by rw [harr₁, harr₂, List.append_nil], het⟩

/-- Events that consume nothing, with the stream untouched. -/
theorem InputFlow.of_quiet {s t : State} (new : List Event) (htrace : t.trace = s.trace ++ new)
    (hnew : new.filterMap Event.inByte = []) (hinp : t.inp = s.inp) : InputFlow s t :=
  ⟨new, [], htrace, by rw [hnew, hinp, List.append_nil, List.nil_append], fun he => ⟨rfl, hinp ▸ he⟩⟩

theorem filterMap_inByte_out (bs : List Byte) : (bs.map Event.out).filterMap Event.inByte = [] := by
  simp [List.filterMap_map, Function.comp_def, Event.inByte]

theorem InputFlow.emit (s : State) (bs : List Byte) : InputFlow s (s.emit bs) :=
  .of_quiet (bs.map .out) rfl (filterMap_inByte_out bs) rfl

theorem InputFlow.memWrite (s : State) (a v : Word) : InputFlow s (s.memWrite a v) := by
  by_cases ha : a = ddrAddr
  · exact .of_quiet [.out (lowByte v)] (by simp [ha]) rfl (s.memWrite_inp a v)
  · exact .of_quiet [] (by simp [ha]) rfl (s.memWrite_inp a v)

/-- The environment's turn, with events that consume nothing. -/
theorem InputFlow.turn (s : State) (new : List Event) (hnew : new.filterMap Event.inByte = []) :
    InputFlow s { s with inp := s.inp.turn, trace := s.trace ++ new } := by
  obtain ⟨arrived, hq, hnone, heof⟩ := s.inp.turn_spec
  exact ⟨new, arrived, rfl, by rw [hnew, List.nil_append, hq], fun he => ⟨hnone he, heof he⟩⟩

/-- The environment's turn, and the head of IN consumed. -/
theorem InputFlow.take {s : State} {c : Byte} {rest : List Byte} (hq : s.inp.turn.queue = c :: rest) :
    InputFlow s { s with inp := { s.inp.turn with queue := rest }, trace := s.trace ++ [.inChar c] } := by
  obtain ⟨arrived, hturn, hnone, heof⟩ := s.inp.turn_spec
  exact ⟨[.inChar c], arrived, rfl, hturn.symm.trans hq, fun he => ⟨hnone he, heof he⟩⟩

/-! ## Steps of the streams alone -/

/-- `u` is `s` but for the streams, and these flow: what reads, waits and emissions do. -/
structure StreamsOnly (s u : State) : Prop where
  core : u = { s with inp := u.inp, trace := u.trace }
  flow : InputFlow s u

theorem StreamsOnly.refl (s : State) : StreamsOnly s s := ⟨rfl, .refl s⟩

theorem StreamsOnly.trans {s u t : State} (h₁ : StreamsOnly s u) (h₂ : StreamsOnly u t) : StreamsOnly s t where
  core := by rw [h₂.core, h₁.core]
  flow := h₁.flow.trans h₂.flow

theorem StreamsOnly.regs {s u : State} (h : StreamsOnly s u) : u.regs = s.regs := by rw [h.core]
theorem StreamsOnly.pc {s u : State} (h : StreamsOnly s u) : u.pc = s.pc := by rw [h.core]
theorem StreamsOnly.cond {s u : State} (h : StreamsOnly s u) : u.cond = s.cond := by rw [h.core]
theorem StreamsOnly.params {s u : State} (h : StreamsOnly s u) : u.params = s.params := by rw [h.core]

theorem StreamsOnly.emit (s : State) (bs : List Byte) : StreamsOnly s (s.emit bs) := ⟨rfl, .emit s bs⟩

theorem StreamsOnly.turn (s : State) : StreamsOnly s { s with inp := s.inp.turn } where
  core := rfl
  flow := by simpa using InputFlow.turn s [] rfl

theorem StreamsOnly.nextChar {s u : State} {v : Word} (h : s.nextChar = .value v u) : StreamsOnly s u := by
  refine ⟨(State.nextChar_value h).2, ?_⟩
  rcases s.nextChar_cases with ⟨c, rest, hq, e⟩ | ⟨-, -, e⟩ | ⟨-, -, e⟩ <;> rw [e] at h <;> cases h
  · exact .take hq
  · exact .turn s [.inEof] rfl

theorem StreamsOnly.memRead {s u : State} {a v : Word} (h : s.memRead a = .value v u) : StreamsOnly s u := by
  rcases s.memRead_cases a with ⟨-, e⟩ | ⟨-, e⟩ | ⟨-, e⟩ | ⟨-, e⟩ <;> rw [e] at h
  · cases h; exact ⟨rfl, .turn s [.poll s.keyPending] rfl⟩
  · exact .nextChar h
  · cases h; exact .refl s
  · cases h; exact .refl s

theorem StreamsOnly.promptedState (s : State) : StreamsOnly s (promptedState s) := by
  unfold Machine.promptedState
  split
  · exact .refl s
  · exact .emit s s.params.inPrompt

/-! ## What an instruction may write (R22, R24, R26) -/

/-- The frame of an instruction's execution: the registers, the flags and the pc it may write, the parameters
it leaves, and the flow of the streams. -/
structure ExecFrame (i : Instr) (s t : State) : Prop where
  regs : KeepsRegs s t i.writtenRegs
  cond : i.opcode.setsFlags = false → t.cond = s.cond
  flags : i.opcode.setsFlags = true → t.stage = .fetch → ∃ dr, i.writtenRegs = [dr] ∧ FlagsSay t (t.reg dr)
  pc : i.opcode.writesPc = false → t.pc = s.pc
  params : t.params = s.params
  flow : InputFlow s t

theorem keepsRegs_of_regs_eq {s t : State} (h : t.regs = s.regs) (written : List RegIx) :
    KeepsRegs s t written := fun r _ => State.reg_congr h r

/-- A state with one register set keeps the others. -/
theorem keepsRegs_of_regs_eq_set {s t : State} {r : RegIx} {v : Word} (h : t.regs = s.regs.set r.val v) :
    KeepsRegs s t [r] := fun q hq =>
  (State.reg_congr (s := s.setReg r v) h q).trans (State.reg_setReg_other s v (by simpa using hq))

/-- ADD, AND, NOT, LEA and a completed load: a result written after the reads. -/
theorem ExecFrame.of_result {i : Instr} {s u : State} {dr : RegIx} (v : Word) (hu : StreamsOnly s u)
    (hwritten : i.writtenRegs = [dr]) (hsets : i.opcode.setsFlags = true) :
    ExecFrame i s { u.setResult dr v with stage := .fetch } where
  regs := by
    rw [hwritten]
    exact keepsRegs_of_regs_eq_set (v := v) (by simp [hu.regs])
  cond hno := by simp [hsets] at hno
  flags _ _ := by
    refine ⟨dr, hwritten, ?_⟩
    have hreg : ({ u.setResult dr v with stage := .fetch } : State).reg dr = v := u.reg_setResult_same dr v
    rw [hreg]
    exact flagsSay_of_cond rfl
  pc _ := hu.pc
  params := hu.params
  flow := hu.flow

/-- An instruction that waits has moved the streams alone. -/
theorem ExecFrame.of_wait {i : Instr} {s u : State} {stage : Stage} (hu : StreamsOnly s u)
    (hstage : stage ≠ .fetch) : ExecFrame i s { u with stage := stage } where
  regs := keepsRegs_of_regs_eq hu.regs _
  cond _ := hu.cond
  flags _ hfetch := absurd hfetch hstage
  pc _ := hu.pc
  params := hu.params
  flow := hu.flow

/-- An instruction of another opcode than the seven leaves the flags. -/
theorem ExecFrame.of_no_flags {i : Instr} {s t : State} (hsets : i.opcode.setsFlags = false)
    (hregs : KeepsRegs s t i.writtenRegs) (hcond : t.cond = s.cond)
    (hpc : i.opcode.writesPc = false → t.pc = s.pc) (hparams : t.params = s.params) (hflow : InputFlow s t) :
    ExecFrame i s t where
  regs := hregs
  cond _ := hcond
  flags hyes _ := by simp [hsets] at hyes
  pc := hpc
  params := hparams
  flow := hflow

/-- The stores, by a write after the reads. -/
theorem ExecFrame.of_store {i : Instr} {s u : State} (a v : Word) (hu : StreamsOnly s u)
    (hsets : i.opcode.setsFlags = false) : ExecFrame i s { u.memWrite a v with stage := .fetch } :=
  .of_no_flags hsets (keepsRegs_of_regs_eq (by simp [hu.regs]) _) (by simp [hu.cond])
    (fun _ => by simp [hu.pc]) (by simp [hu.params]) (hu.flow.trans (.memWrite u a v))

/-- The services that only emit, and the instructions that do nothing. -/
theorem ExecFrame.of_streams {i : Instr} {s u : State} (hu : StreamsOnly s u)
    (hsets : i.opcode.setsFlags = false) : ExecFrame i s { u with stage := .fetch } :=
  .of_no_flags hsets (keepsRegs_of_regs_eq hu.regs _) hu.cond (fun _ => hu.pc) hu.params hu.flow

/-- BR writes the pc alone, with its own value when it is not taken. -/
theorem execBr_eq (n z p : Bool) (off9 : BitVec 9) (s : State) :
    execBr n z p off9 s =
      complete { s with pc := if branchTaken n z p s.cond then pcRelative s.pc off9 else s.pc } := by
  unfold execBr
  split <;> rfl

theorem finishLoad_frame {i : Instr} {s t : State} {a : Word} {dr : RegIx} (hwritten : i.writtenRegs = [dr])
    (hsets : i.opcode.setsFlags = true) (h : finishLoad dr (s.memRead a) = .next t) : ExecFrame i s t := by
  rcases finishLoad_memRead_eq_next h with ⟨v, u, hread, rfl⟩ | ⟨-, -, rfl⟩
  · exact .of_result v (.memRead hread) hwritten hsets
  · exact .of_wait (.turn s) (by decide)

/-- All that an instruction may write. -/
theorem exec_frame {i : Instr} {s t : State} (h : exec i s = .next t) : ExecFrame i s t := by
  cases i with
  | addReg | addImm | andReg | andImm | not | lea =>
    cases complete_eq_next h
    exact .of_result _ (.refl s) rfl rfl
  | ld | ldr => exact finishLoad_frame rfl rfl h
  | ldi dr off9 =>
    rcases execLdi_eq_next h with ⟨ea, u, v, w, hptr, hread, rfl⟩ | ⟨-, -, rfl⟩
    · exact .of_result v ((StreamsOnly.memRead hptr).trans (.memRead hread)) rfl rfl
    · exact .of_wait (.turn s) (by decide)
  | st | str =>
    cases complete_eq_next h
    exact .of_store _ _ (.refl s) rfl
  | sti sr off9 =>
    rcases execSti_eq_next h with ⟨ea, u, hptr, rfl⟩ | ⟨-, -, rfl⟩
    · exact .of_store ea (u.reg sr) (.memRead hptr) rfl
    · exact .of_wait (.turn s) (by decide)
  | br n z p off9 =>
    cases complete_eq_next ((execBr_eq n z p off9 s).symm.trans h)
    exact .of_no_flags rfl (keepsRegs_of_regs_eq rfl _) rfl nofun rfl (.refl s)
  | jmp =>
    cases complete_eq_next h
    exact .of_no_flags rfl (keepsRegs_of_regs_eq rfl _) rfl nofun rfl (.refl s)
  | jsr | jsrr =>
    cases complete_eq_next h
    exact .of_no_flags rfl (keepsRegs_of_regs_eq_set rfl) rfl nofun rfl (.refl s)
  | rti | res | trapOther =>
    cases complete_eq_next h
    exact .of_streams (.refl s) rfl
  | trapOut | trapPuts | trapPutsp =>
    cases complete_eq_next h
    exact .of_streams (.emit s _) rfl
  | trapHalt =>
    cases complete_eq_next h
    exact .of_no_flags rfl (keepsRegs_of_regs_eq rfl _) rfl (fun _ => rfl) rfl (.refl s)
  | trapGetc =>
    rcases execTrapGetc_eq_next h with ⟨v, u, hread, rfl⟩ | ⟨-, rfl⟩
    · have hu := StreamsOnly.nextChar hread
      exact .of_no_flags rfl (keepsRegs_of_regs_eq_set (v := v) (by simp [hu.regs])) hu.cond (fun _ => hu.pc) hu.params
        hu.flow
    · exact .of_wait (.turn s) (by decide)
  | trapIn =>
    rcases execTrapIn_eq_next h with ⟨v, u, hread, rfl⟩ | ⟨-, rfl⟩
    · have hu := (StreamsOnly.promptedState s).trans (.nextChar hread)
      exact .of_no_flags rfl (keepsRegs_of_regs_eq_set (v := v) (by simp [hu.regs])) hu.cond (fun _ => hu.pc) hu.params
        (hu.flow.trans (.emit (u.setReg 0 v) [lowByte v]))
    · have hinp : (promptedState s).inp = s.inp := by rw [promptedState_eq]
      have hturn : StreamsOnly (promptedState s) { promptedState s with inp := s.inp.turn } :=
        hinp ▸ .turn (promptedState s)
      exact .of_wait ((StreamsOnly.promptedState s).trans hturn) (by decide)

/-- Settles O51. -/
theorem registersWrittenOnlyAsNamed : Obligations.RegistersWrittenOnlyAsNamed :=
  fun _ _ _ h => (exec_frame h).regs

/-! ## What a step does -/

/-- A step with an instruction issued is that instruction's execution. -/
theorem step_of_issued {s u : State} {i : Instr} (h : s.issued = some (i, u)) : step s = exec i u := by
  obtain ⟨hrun, ⟨hstage, w, v, hread, rfl, rfl⟩ | ⟨hstage, rfl, rfl⟩⟩ := State.issued_eq_some h
  · simp [step, hrun, hstage, beginCycle, State.fetch, hread]
  · cases hs : u.stage with
    | fetch => exact absurd hs hstage
    | waiting => simp [step, hrun, hs, resumeCycle]
    | prompted => simp [step, hrun, hs, resumeCycle]

/-- Settles O53: the increment is the fetch's, and the instruction leaves it. -/
theorem pcWrittenOnlyByTransfers : Obligations.PcWrittenOnlyByTransfers := by
  refine ⟨fun i s t h hpc => (exec_frame h).pc hpc, fun s t i u hissued hfetch hpc hstep => ?_⟩
  have ht : t.pc = u.pc := (exec_frame ((step_of_issued hissued).symm.trans hstep)).pc hpc
  obtain ⟨-, ⟨-, w, v, hread, -, rfl⟩ | ⟨hstage, -⟩⟩ := State.issued_eq_some hissued
  · rw [ht, State.latch_pc, (StreamsOnly.memRead hread).pc, BitVec.toNat_add]
    rfl
  · exact absurd hfetch hstage

/-- Issuing an instruction moves the streams and leaves the parameters. -/
theorem State.issued_flow {s u : State} {i : Instr} (h : s.issued = some (i, u)) :
    InputFlow s u ∧ u.params = s.params := by
  obtain ⟨-, ⟨-, w, v, hread, -, rfl⟩ | ⟨-, -, rfl⟩⟩ := State.issued_eq_some h
  · have hv := StreamsOnly.memRead hread
    exact ⟨hv.flow, hv.params⟩
  · exact ⟨.refl u, rfl⟩

/-- The streams flow through every step, and the parameters stay. -/
theorem step_flow {s t : State} (h : step s = .next t) : InputFlow s t ∧ t.params = s.params := by
  rcases step_eq_next h with ⟨-, rfl⟩ | ⟨-, -, -, -, rfl⟩ | ⟨i, u, hissued, hexec⟩
  · exact ⟨.refl t, rfl⟩
  · exact ⟨(StreamsOnly.turn s).flow, rfl⟩
  · obtain ⟨hflow, hparams⟩ := State.issued_flow hissued
    have hframe := exec_frame hexec
    exact ⟨hflow.trans hframe.flow, hframe.params.trans hparams⟩

/-- Settles O56: the flow of the streams through a step. -/
theorem inputIsConsumedInOrder : Obligations.InputIsConsumedInOrder := fun _ _ h => (step_flow h).1

/-- Settles O55: OUT is read off the trace, which only grows. -/
theorem traceOnlyGrows : Obligations.TraceOnlyGrows := by
  intro s t h
  obtain ⟨⟨new, -, htrace, -, -⟩, hparams⟩ := step_flow h
  refine ⟨⟨new, htrace⟩, ⟨new.filterMap Event.outByte, ?_⟩, hparams⟩
  rw [State.out, htrace, List.filterMap_append, State.out]

/-! ## What an instruction may see (R26, R32) -/

theorem State.memWrite_with_inp (s : State) (inp : InputStream) (a v : Word) :
    State.memWrite { s with inp := inp } a v = { s.memWrite a v with inp := inp } := by
  rw [State.memWrite_eq, State.memWrite_eq]

theorem State.memWrite_with_cond (s : State) (c : Flag) (a v : Word) :
    State.memWrite { s with cond := c } a v = { s.memWrite a v with cond := c } := by
  rw [State.memWrite_eq, State.memWrite_eq]

/-- A completed cycle in another input stream. -/
theorem complete_with_inp {s t : State} (inp : InputStream) (h : complete s = .next t) :
    complete { s with inp := inp } = .next { t with inp := inp } := by
  cases complete_eq_next h
  rfl

theorem complete_memWrite_with_inp {s t : State} {a v : Word} (inp : InputStream)
    (h : complete (s.memWrite a v) = .next t) :
    complete (State.memWrite { s with inp := inp } a v) = .next { t with inp := inp } := by
  rw [State.memWrite_with_inp]
  exact complete_with_inp inp h

/-- Settles O57: whatever is no reader completes at once, and computes its end state without the stream. -/
theorem inputSeenOnlyByReaders : Obligations.InputSeenOnlyByReaders := by
  intro i s t inp hreader h
  cases i with
  | ld | ldi | ldr | sti | trapGetc | trapIn => cases hreader
  | br n z p off9 =>
    exact (execBr_eq n z p off9 _).trans (complete_with_inp inp ((execBr_eq n z p off9 s).symm.trans h))
  | st sr off9 => exact complete_memWrite_with_inp inp h
  | str sr base off6 => exact complete_memWrite_with_inp inp h
  | addReg | addImm | andReg | andImm | not | lea | jsr | jsrr | jmp | rti | res | trapOut | trapPuts | trapPutsp
  | trapHalt | trapOther => exact complete_with_inp inp h

/-- The same answer, in a state with other flags. -/
def Access.withCond (c : Flag) : Access → Access
  | .value v s => .value v { s with cond := c }
  | .waits s => .waits { s with cond := c }

/-- `NextChar()` reads no flags. -/
theorem State.nextChar_with_cond (s : State) (c : Flag) :
    State.nextChar { s with cond := c } = s.nextChar.withCond c := by
  rcases s.nextChar_cases with ⟨b, rest, hq, e⟩ | ⟨hq, he, e⟩ | ⟨hq, he, e⟩ <;> rw [e]
  · exact State.nextChar_of_head hq
  · exact State.nextChar_of_eof hq he
  · exact State.nextChar_of_not_ready ((State.inputReady_eq_false_iff _).2 ⟨hq, he⟩)

/-- `MemRead` reads no flags. -/
theorem State.memRead_with_cond (s : State) (c : Flag) (a : Word) :
    State.memRead { s with cond := c } a = (s.memRead a).withCond c := by
  rcases s.memRead_cases a with ⟨rfl, e⟩ | ⟨rfl, -⟩ | ⟨rfl, e⟩ | ⟨hplain, e⟩
  · rw [e]; rfl
  · exact s.nextChar_with_cond c
  · rw [e]; rfl
  · rw [e]; exact State.memRead_plain _ hplain

/-- The first outcome's next state is the second's, up to the flags. -/
def EqUpToCond (o o' : Host.Outcome State Fault Refusal) : Prop :=
  ∀ t, o = .next t → ∃ u, o' = .next u ∧ { u with cond := t.cond } = t

theorem EqUpToCond.next {t u : State} (h : { u with cond := t.cond } = t) : EqUpToCond (.next t) (.next u) := by
  rintro _ ⟨⟩
  exact ⟨u, rfl, h⟩

theorem EqUpToCond.complete {t u : State} (h : { u with cond := t.cond } = t) :
    EqUpToCond (complete t) (complete u) := .next (by rw [← h])

theorem complete_memWrite_eqUpToCond (s : State) (c : Flag) (a v : Word) :
    EqUpToCond (complete (s.memWrite a v)) (complete (State.memWrite { s with cond := c } a v)) := by
  rw [s.memWrite_with_cond c a v]
  exact .complete rfl

theorem finishLoad_eqUpToCond (dr : RegIx) (r : Access) (c : Flag) :
    EqUpToCond (finishLoad dr r) (finishLoad dr (r.withCond c)) := by
  cases r with
  | value v s => exact .complete rfl
  | waits s => exact .next rfl

theorem finishLoad_memRead_eqUpToCond (s : State) (c : Flag) (dr : RegIx) (a : Word) :
    EqUpToCond (finishLoad dr (s.memRead a)) (finishLoad dr (State.memRead { s with cond := c } a)) := by
  rw [s.memRead_with_cond c a]
  exact finishLoad_eqUpToCond dr (s.memRead a) c

/-- Every instruction but BR does the same from every value of the flags. -/
theorem exec_eqUpToCond {i : Instr} (s : State) (c : Flag) (hbr : i.opcode ≠ .br) :
    EqUpToCond (exec i s) (exec i { s with cond := c }) := by
  cases i with
  | br => exact absurd rfl hbr
  | addReg | addImm | andReg | andImm | not | lea | jsr | jsrr | jmp | rti | res | trapOut | trapPuts | trapPutsp
  | trapHalt | trapOther => exact .complete rfl
  | st sr off9 => exact complete_memWrite_eqUpToCond s c _ _
  | str sr base off6 => exact complete_memWrite_eqUpToCond s c _ _
  | ld dr off9 => exact finishLoad_memRead_eqUpToCond s c dr (pcRelative s.pc off9)
  | ldr dr base off6 => exact finishLoad_memRead_eqUpToCond s c dr (baseOffset (s.reg base) off6)
  | ldi dr off9 =>
    simp only [exec, execLdi, s.memRead_with_cond c]
    cases s.memRead (pcRelative s.pc off9) with
    | value ea u => exact finishLoad_memRead_eqUpToCond u c dr ea
    | waits u => exact .next rfl
  | sti sr off9 =>
    simp only [exec, execSti, s.memRead_with_cond c]
    cases s.memRead (pcRelative s.pc off9) with
    | value ea u => exact complete_memWrite_eqUpToCond u c ea (u.reg sr)
    | waits u => exact .next rfl
  | trapGetc =>
    simp only [exec, execTrapGetc, s.nextChar_with_cond c]
    cases s.nextChar with
    | value v u => exact .complete rfl
    | waits u => exact .next rfl
  | trapIn =>
    have hprompt : promptedState { s with cond := c } = { promptedState s with cond := c } := by
      rw [promptedState_eq, promptedState_eq]
    simp only [exec, execTrapIn, hprompt, (promptedState s).nextChar_with_cond c]
    cases (promptedState s).nextChar with
    | value v u => exact .complete rfl
    | waits u => exact .next rfl

/-- Settles O52, by the frame of an instruction and by what it sees of the flags. -/
theorem flagsWrittenBySevenReadByBranch : Obligations.FlagsWrittenBySevenReadByBranch :=
  ⟨fun _ _ _ h => (exec_frame h).cond, fun _ _ _ h => (exec_frame h).flags,
    fun _ s t c hbr h => exec_eqUpToCond s c hbr t h⟩

end Sys2Proof.Machine

/-! SUPPORT. Proofs of the statements about the Memory Subsystem (20_memory.md): effective addresses, what a
read answers and leaves alone, what a write does, and which instructions store. -/

namespace Sys2Proof.Machine

/-! ## Effective addresses (R67, 30_encoding.md R94) -/

/-- The unsigned and the signed reading of a word agree modulo 2^16. -/
theorem toInt_emod_word (w : Word) : w.toInt % 65536 = (w.toNat : Int) := by
  have hw := w.isLt
  rw [BitVec.toInt_eq_toNat_cond]
  split <;> omega

/-- A pc-relative address is the pc plus the signed offset, modulo 2^16, for every width an offset can have. -/
theorem pcRelative_toNat {k : Nat} (hk : k ≤ 16) (pc : Word) (off : BitVec k) :
    ((pcRelative pc off).toNat : Int) = ((pc.toNat : Int) + off.toInt) % 65536 := by
  have hoff : (sext16 off).toInt = off.toInt := by
    rw [sext16_eq_signExtend off hk, BitVec.toInt_signExtend_of_le hk]
  rw [← hoff, Int.add_emod, toInt_emod_word, pcRelative, BitVec.toNat_add]
  omega

/-- Settles O11: the base-plus-offset form is the same sum as the pc-relative one. -/
theorem effectiveAddressesWrap : Obligations.EffectiveAddressesWrap :=
  ⟨pcRelative_toNat (by decide), pcRelative_toNat (by decide), pcRelative_toNat (by decide)⟩

/-! ## Reads (R52 to R57) -/

theorem readIntercepted_eq_false_iff (a : Word) :
    readIntercepted a = false ↔ a ≠ kbsrAddr ∧ a ≠ kbdrAddr ∧ a ≠ dsrAddr := by
  simp [readIntercepted, and_assoc]

/-- Settles O13, by the rows of R52: the three devices, and the cell everywhere else. -/
theorem memReadAnswersByAddress : Obligations.MemReadAnswersByAddress := by
  refine fun s a => ⟨?kbsr, ?kbdr, ?dsr, fun h₁ h₂ h₃ => ?cell⟩
  case kbsr => rintro rfl; exact ⟨s.polled, rfl, rfl, rfl⟩
  case kbdr => rintro rfl; rfl
  case dsr => rintro rfl; rfl
  case cell => exact s.memRead_plain ((readIntercepted_eq_false_iff a).2 ⟨h₁, h₂, h₃⟩)

theorem StreamsOnly.mem {s u : State} (h : StreamsOnly s u) : u.mem = s.mem := by rw [h.core]
theorem StreamsOnly.stage {s u : State} (h : StreamsOnly s u) : u.stage = s.stage := by rw [h.core]
theorem StreamsOnly.running {s u : State} (h : StreamsOnly s u) : u.running = s.running := by rw [h.core]
theorem StreamsOnly.ir {s u : State} (h : StreamsOnly s u) : u.ir = s.ir := by rw [h.core]

theorem StreamsOnly.keepsCells {s u : State} (h : StreamsOnly s u) : KeepsCells s u := State.cell_congr h.mem

theorem StreamsOnly.keepsControl {s u : State} (h : StreamsOnly s u) : KeepsControl s u :=
  ⟨h.running, h.ir, h.params⟩

/-- A read that waits lets the environment act and does nothing else. -/
theorem StreamsOnly.memRead_waits {s u : State} {a : Word} (h : s.memRead a = .waits u) : StreamsOnly s u := by
  obtain ⟨-, -, rfl⟩ := State.memRead_waits h
  exact .turn s

/-- Settles O14: answered or waiting, a read moves the streams alone. -/
theorem readsTouchOnlyTheStreams : Obligations.ReadsTouchOnlyTheStreams := by
  intro s u a hread
  have hu : StreamsOnly s u := hread.elim (fun ⟨_, h⟩ => .memRead h) .memRead_waits
  exact ⟨hu.keepsCells, keepsRegs_of_regs_eq hu.regs [], hu.cond, hu.pc, hu.stage, hu.keepsControl⟩

/-! ## Writes (R58 to R61) -/

theorem lowByte_eq_setWidth (w : Word) : lowByte w = w.setWidth 8 := (BitVec.setWidth_eq_extractLsb' (by decide)).symm

/-- Settles O15, field by field. -/
theorem memWriteStoresEverywhere : Obligations.MemWriteStoresEverywhere := fun s a v =>
  ⟨s.cell_memWrite_same a v, fun _ => s.cell_memWrite_other v, lowByte_eq_setWidth v ▸ s.memWrite_trace a v,
    s.memWrite_running a v, s.memWrite_inp a v, keepsRegs_of_regs_eq (s.memWrite_regs a v) [],
    s.memWrite_cond a v, s.memWrite_pc a v⟩

/-- After a write to MCR the core runs on exactly if it ran and bit 15 is set (R60). -/
theorem State.memWrite_mcr_running (s : State) (v : Word) :
    (s.memWrite mcrAddr v).running = (s.running && v.getLsbD 15) := by
  rw [State.memWrite_running]
  cases v.getLsbD 15 <;> simp

/-- A word written where no device answers is what a read gives back. -/
theorem State.memRead_memWrite_same (s : State) {a : Word} (v : Word) (ha : readIntercepted a = false) :
    (s.memWrite a v).memRead a = .value v (s.memWrite a v) := by
  rw [State.memRead_plain _ ha, State.cell_memWrite_same]

/-! ## Instructions that store (44_store.md R170 to R172) -/

/-- An instruction that stores is, but for what its reads do to the streams, the write of `storeOf`'s word at
`storeOf`'s address, and its cycle is complete. -/
theorem exec_of_storeOf {i : Instr} {s : State} {a v : Word} (h : s.storeOf i = some (a, v)) :
    ∃ u, StreamsOnly s u ∧ exec i s = complete (u.memWrite a v) := by
  cases i with
  | st | str => cases h; exact ⟨s, .refl s, rfl⟩
  | sti sr off9 =>
    cases hptr : s.memRead (pcRelative s.pc off9) with
    | value ea u =>
      simp only [State.storeOf, hptr] at h
      cases h
      have hu := StreamsOnly.memRead hptr
      exact ⟨u, hu, by simp only [exec, execSti, hptr, State.reg_congr hu.regs]⟩
    | waits u =>
      simp only [State.storeOf, hptr] at h
      cases h
  | br | addReg | addImm | ld | jsr | jsrr | andReg | andImm | ldr | rti | not | ldi | jmp | res | lea | trapGetc
  | trapOut | trapPuts | trapIn | trapPutsp | trapHalt | trapOther => cases h

theorem finishLoad_memRead_mem {s t : State} {a : Word} {dr : RegIx}
    (h : finishLoad dr (s.memRead a) = .next t) : t.mem = s.mem := by
  rcases finishLoad_memRead_eq_next h with ⟨v, u, hread, rfl⟩ | ⟨-, -, rfl⟩
  · exact (StreamsOnly.memRead hread).mem
  · rfl

/-- An instruction that stores nothing leaves memory alone (R57, 47_trap.md R208). -/
theorem exec_mem_of_storeOf_eq_none {i : Instr} {s t : State} (hstore : s.storeOf i = none)
    (h : exec i s = .next t) : t.mem = s.mem := by
  cases i with
  | st | str => cases hstore
  | sti sr off9 =>
    rcases execSti_eq_next h with ⟨ea, u, hptr, -⟩ | ⟨-, -, rfl⟩
    · simp [State.storeOf, hptr] at hstore
    · rfl
  | ld | ldr => exact finishLoad_memRead_mem h
  | ldi =>
    rcases execLdi_eq_next h with ⟨ea, u, v, w, hptr, hread, rfl⟩ | ⟨-, -, rfl⟩
    · exact ((StreamsOnly.memRead hptr).trans (.memRead hread)).mem
    · rfl
  | br n z p off9 =>
    cases complete_eq_next ((execBr_eq n z p off9 s).symm.trans h)
    rfl
  | trapGetc =>
    rcases execTrapGetc_eq_next h with ⟨v, u, hread, rfl⟩ | ⟨-, rfl⟩
    · exact (StreamsOnly.nextChar hread).mem
    · rfl
  | trapIn =>
    rcases execTrapIn_eq_next h with ⟨v, u, hread, rfl⟩ | ⟨-, rfl⟩
    · exact ((StreamsOnly.promptedState s).trans (.nextChar hread)).mem
    · exact (StreamsOnly.promptedState s).mem
  | addReg | addImm | andReg | andImm | not | lea | jsr | jsrr | jmp | rti | res | trapOut | trapPuts | trapPutsp
  | trapHalt | trapOther =>
    cases complete_eq_next h
    rfl

/-- Settles O54: an instruction writes at the address `storeOf` names, or not at all. -/
theorem memoryWrittenOnlyByStores : Obligations.MemoryWrittenOnlyByStores := by
  intro i s t a h hother
  cases hstore : s.storeOf i with
  | none => exact State.cell_congr (exec_mem_of_storeOf_eq_none hstore h) a
  | some store =>
    obtain ⟨b, v⟩ := store
    have hab : a ≠ b := fun e => hother v (e ▸ hstore)
    obtain ⟨u, hu, hexec⟩ := exec_of_storeOf hstore
    cases complete_eq_next (hexec.symm.trans h)
    exact (u.cell_memWrite_other v hab).trans (hu.keepsCells a)

/-! ## Cycles that store (R60, R71) -/

/-- Issuing an instruction leaves `running`, which was true. -/
theorem State.issued_running {s u : State} {i : Instr} (h : s.issued = some (i, u)) : u.running = true := by
  obtain ⟨hrun, ⟨-, w, v, hread, -, rfl⟩ | ⟨-, -, rfl⟩⟩ := State.issued_eq_some h
  · exact (StreamsOnly.memRead hread).running.trans hrun
  · exact hrun

/-- A cycle that stores completes with its write. -/
theorem step_of_storeOf {s u : State} {i : Instr} {a v : Word} (hissued : s.issued = some (i, u))
    (hstore : u.storeOf i = some (a, v)) :
    ∃ w, StreamsOnly u w ∧ step s = .next { w.memWrite a v with stage := .fetch } := by
  obtain ⟨w, hw, hexec⟩ := exec_of_storeOf hstore
  exact ⟨w, hw, (step_of_issued hissued).trans hexec⟩

/-- Settles O16: the write itself, and then the cycle of an instruction that makes it. -/
theorem controlRegisterWriteHalts : Obligations.ControlRegisterWriteHalts := by
  refine ⟨fun s v => ⟨s.cell_memWrite_same mcrAddr v, s.memWrite_mcr_running v,
    s.memRead_memWrite_same v (by decide)⟩, fun s u i v hissued hstore => ?_⟩
  obtain ⟨w, hw, hstep⟩ := step_of_storeOf hissued hstore
  have hrun : w.running = true := hw.running.trans (State.issued_running hissued)
  refine ⟨_, hstep, w.cell_memWrite_same mcrAddr v, ?_, (w.memWrite_pc mcrAddr v).trans hw.pc, rfl⟩
  calc (w.memWrite mcrAddr v).running = (w.running && v.getLsbD 15) := w.memWrite_mcr_running v
    _ = v.getLsbD 15 := by rw [hrun, Bool.true_and]

/-- A running core between cycles whose pc no device answers runs the instruction its cell holds. -/
theorem step_of_plain_fetch {s : State} {w : Word} (hrun : s.running = true) (hstage : s.stage = .fetch)
    (hplain : readIntercepted s.pc = false) (hcell : s.cell s.pc = w) : step s = exec (decode w) (s.latch w) :=
  step_of_issued (by simp [State.issued, hrun, hstage, State.fetch, s.memRead_plain hplain, hcell])

/-- Settles O43: the store completes its cycle, and the next fetch reads the cell it wrote. -/
theorem storeIsSeenByTheNextFetch : Obligations.StoreIsSeenByTheNextFetch := by
  intro s u t i v hissued hstore hstep hrun hplain
  obtain ⟨w, hw, hstored⟩ := step_of_storeOf hissued hstore
  cases hstored.symm.trans hstep
  have hpc : (w.memWrite u.pc v).pc = u.pc := (w.memWrite_pc u.pc v).trans hw.pc
  have hcell : (w.memWrite u.pc v).cell (w.memWrite u.pc v).pc = v := by
    rw [hpc, State.cell_memWrite_same]
  exact ⟨hpc, step_of_plain_fetch hrun rfl (hpc.symm ▸ hplain) hcell⟩

end Sys2Proof.Machine

/-! SUPPORT. Proofs of the statements about the encoding (30_encoding.md): decoding what was encoded, encoding what
was decoded, the ignored bits, and the opcode table. -/

namespace Sys2Proof

/-! ## The fields of an encoded instruction (R92) -/

/-- Each bit of a placed field, as `simp` writes a bit of a word. -/
@[simp] theorem getElem_place {k : Nat} (f : BitVec k) (lo i : Nat) (h : i < 16) :
    (place f lo)[i] = (decide (lo ≤ i) && f.getLsbD (i - lo)) := by
  rw [← BitVec.getLsbD_eq_getElem h, getLsbD_place]
  simp [h]

@[simp] theorem encodeBr_fields (n z p : Bool) (off : BitVec 9) :
    (encodeBr n z p off)[11] = n ∧ (encodeBr n z p off)[10] = z ∧
    (encodeBr n z p off)[9] = p ∧ off9Field (encodeBr n z p off) = off := by
  simp [off9Field, encodeBr, field_or, field_place_same, field_place_below]

@[simp] theorem encodePc9_fields (op : Opcode) (r : RegIx) (off : BitVec 9) :
    fieldA (encodePc9 op r off) = r ∧ off9Field (encodePc9 op r off) = off := by
  simp [fieldA, off9Field, regField, encodePc9, field_or, field_place_same, field_place_below, field_place_above]

@[simp] theorem encodeOpr_fields (op : Opcode) (dr sr1 sr2 : RegIx) :
    (encodeOpr op dr sr1 sr2)[5] = false ∧ fieldA (encodeOpr op dr sr1 sr2) = dr ∧
    fieldB (encodeOpr op dr sr1 sr2) = sr1 ∧ fieldC (encodeOpr op dr sr1 sr2) = sr2 := by
  simp [fieldA, fieldB, fieldC, regField, encodeOpr, field_or, field_place_same, field_place_below,
    field_place_above]

@[simp] theorem encodeOpi_fields (op : Opcode) (dr sr1 : RegIx) (imm : BitVec 5) :
    (encodeOpi op dr sr1 imm)[5] = true ∧ fieldA (encodeOpi op dr sr1 imm) = dr ∧
    fieldB (encodeOpi op dr sr1 imm) = sr1 ∧ imm5Field (encodeOpi op dr sr1 imm) = imm := by
  simp [fieldA, fieldB, imm5Field, regField, encodeOpi, field_or, field_place_same, field_place_below,
    field_place_above]

@[simp] theorem encodeB6_fields (op : Opcode) (r base : RegIx) (off : BitVec 6) :
    fieldA (encodeB6 op r base off) = r ∧ fieldB (encodeB6 op r base off) = base ∧
    off6Field (encodeB6 op r base off) = off := by
  simp [fieldA, fieldB, off6Field, regField, encodeB6, field_or, field_place_same, field_place_below,
    field_place_above]

@[simp] theorem encodeJsr_fields (off : BitVec 11) :
    (encodeJsr off)[11] = true ∧ off11Field (encodeJsr off) = off := by
  simp [off11Field, encodeJsr, field_or, field_place_same, field_place_below]

@[simp] theorem encodeBase_fields (op : Opcode) (base : RegIx) :
    (encodeBase op base)[11] = false ∧ fieldB (encodeBase op base) = base := by
  simp [fieldB, regField, encodeBase, field_or, field_place_same, field_place_below]

@[simp] theorem encodeNot_fields (dr sr : RegIx) :
    fieldA (encodeNot dr sr) = dr ∧ fieldB (encodeNot dr sr) = sr := by
  simp [fieldA, fieldB, regField, encodeNot, field_or, field_place_same, field_place_below, field_place_above]

@[simp] theorem vect8Field_encodeTrap (v : Byte) : vect8Field (encodeTrap v) = v := by
  simp [vect8Field, encodeTrap, field_or, field_place_same, field_place_below]

/-- An encoded instruction belongs to its opcode (R91). -/
theorem ofBits_opcodeField_encode (i : Instr) : Opcode.ofBits (opcodeField (encode i)) = i.opcode := by
  have hbits : opcodeField (encode i) = i.opcode.bits := by
    cases i with
    | br => exact Laws.EncodedOpcode.br ..
    | jsr => exact Laws.EncodedOpcode.jsr _
    | not => exact Laws.EncodedOpcode.not ..
    | ld | st | ldi | sti | lea => exact opcodeField_encodePc9 ..
    | addReg | andReg => exact opcodeField_encodeOpr ..
    | addImm | andImm => exact opcodeField_encodeOpi ..
    | ldr | str => exact opcodeField_encodeB6 ..
    | jsrr | jmp => exact opcodeField_encodeBase ..
    | rti | res => exact opcodeField_place _
    | trapGetc | trapOut | trapPuts | trapIn | trapPutsp | trapHalt | trapOther => exact opcodeField_encodeTrap _
  rw [hbits, Opcode.ofBits_bits]

/-- Settles O4: the opcode selects the decoder's arm, and the arm's fields are the operands that were placed. -/
theorem decodeOfEncodeIsTheInstruction : Obligations.DecodeOfEncodeIsTheInstruction := by
  intro i hwf
  have hop := ofBits_opcodeField_encode i
  unfold decode
  rw [hop]
  cases i with
  | trapOther v => simpa [Instr.opcode, encode] using decodeTrap_of_undefined hwf
  | trapGetc | trapOut | trapPuts | trapIn | trapPutsp | trapHalt => simp [Instr.opcode, encode, decodeTrap]
  | br | addReg | addImm | ld | st | jsr | jsrr | andReg | andImm | ldr | str | rti | not | ldi | sti | jmp | res
  | lea => simp [Instr.opcode, encode]

/-! ## Bits that are ignored (R96) -/

section
variable {w w' mask val : Word}

/-- Where a mask is set, a masked word tells the bit. -/
theorem bit_of_masked (h : w &&& mask = val) (n : Nat) (hm : mask.extractLsb' n 1 = BitVec.allOnes 1) :
    w.getLsbD n = val.getLsbD n :=
  bit_of_field ((field_of_masked h n 1 hm).trans (bit_eq_field val n).symm)

/-- Words that agree under a mask have the same field wherever the mask is all ones. -/
theorem field_congr (h : w' &&& mask = w &&& mask) (lo k : Nat)
    (hm : mask.extractLsb' lo k = BitVec.allOnes k) : w'.extractLsb' lo k = w.extractLsb' lo k :=
  (field_of_masked h lo k hm).trans (field_of_masked rfl lo k hm).symm

theorem bit_congr (h : w' &&& mask = w &&& mask) (n : Nat)
    (hm : mask.extractLsb' n 1 = BitVec.allOnes 1) : w'.getLsbD n = w.getLsbD n :=
  (bit_of_masked h n hm).trans (bit_of_masked rfl n hm).symm

theorem regField_congr (h : w' &&& mask = w &&& mask) (lo : Nat)
    (hm : mask.extractLsb' lo 3 = BitVec.allOnes 3) : regField w' lo = regField w lo :=
  congrArg BitVec.toFin (field_congr h lo 3 hm)

theorem eq_of_and_not_zero (h : w' &&& ~~~0x0000#16 = w &&& ~~~0x0000#16) : w' = w := by
  simpa only [BitVec.not_zero, BitVec.and_allOnes] using h

end

theorem opcode_not_ignored (i : Instr) : (~~~ignoredBits i).extractLsb' 12 4 = BitVec.allOnes 4 := by
  cases i <;> simp [ignoredBits]

@[simp] theorem ignoredBits_decodeTrap (v : Byte) : ignoredBits (decodeTrap v) = 0x0F00#16 := by revert v; decide

/-- A word that agrees with `w` in every bit `decode w` does not ignore is the same instruction: no field the
decoder reads for that instruction holds an ignored bit. -/
theorem decode_congr {w w' : Word}
    (h : w' &&& ~~~ignoredBits (decode w) = w &&& ~~~ignoredBits (decode w)) : decode w' = decode w := by
  have hfield : opcodeField w' = opcodeField w := field_congr h 12 4 (opcode_not_ignored _)
  by_cases hnone : ignoredBits (decode w) = 0x0000#16
  · rw [hnone] at h
    rw [eq_of_and_not_zero h]
  cases hop : Opcode.ofBits (opcodeField w) with
  | br | ld | st | ldr | str | ldi | sti | lea => simp [decode, hop, ignoredBits] at hnone
  | add | and =>
    cases hmode : w[5] with
    | true => simp [decode, hop, hmode, ignoredBits] at hnone
    | false =>
      have hused : w' &&& ~~~0x0018#16 = w &&& ~~~0x0018#16 := by simpa [decode, hop, hmode, ignoredBits] using h
      have hmode' : w'[5] = false := (bit_congr hused 5 rfl).trans hmode
      have hA : fieldA w' = fieldA w := regField_congr hused 9 rfl
      have hB : fieldB w' = fieldB w := regField_congr hused 6 rfl
      have hC : fieldC w' = fieldC w := regField_congr hused 0 rfl
      simp [decode, hfield, hop, hmode, hmode', hA, hB, hC]
  | jsr =>
    cases hmode : w[11] with
    | true => simp [decode, hop, hmode, ignoredBits] at hnone
    | false =>
      have hused : w' &&& ~~~0x063F#16 = w &&& ~~~0x063F#16 := by simpa [decode, hop, hmode, ignoredBits] using h
      have hmode' : w'[11] = false := (bit_congr hused 11 rfl).trans hmode
      have hB : fieldB w' = fieldB w := regField_congr hused 6 rfl
      simp [decode, hfield, hop, hmode, hmode', hB]
  | rti | res => simp [decode, hfield, hop]
  | not =>
    have hused : w' &&& ~~~0x003F#16 = w &&& ~~~0x003F#16 := by simpa [decode, hop, ignoredBits] using h
    have hA : fieldA w' = fieldA w := regField_congr hused 9 rfl
    have hB : fieldB w' = fieldB w := regField_congr hused 6 rfl
    simp [decode, hfield, hop, hA, hB]
  | jmp =>
    have hused : w' &&& ~~~0x0E3F#16 = w &&& ~~~0x0E3F#16 := by simpa [decode, hop, ignoredBits] using h
    have hB : fieldB w' = fieldB w := regField_congr hused 6 rfl
    simp [decode, hfield, hop, hB]
  | trap =>
    have hused : w' &&& ~~~0x0F00#16 = w &&& ~~~0x0F00#16 := by simpa [decode, hop] using h
    have hvect : vect8Field w' = vect8Field w := field_congr hused 0 8 rfl
    simp [decode, hfield, hop, hvect]

/-- Settles O6: the flipped bits lie outside the used ones. -/
theorem ignoredBitsDoNotMatter : Obligations.IgnoredBitsDoNotMatter := by
  refine fun w x => decode_congr ?_
  ext i hi
  cases hign : (ignoredBits (decode w))[i] <;> simp [hign]

/-! ## Encoding a decoded word

Each placed field of `decode w` is `w` under the field's mask, so the encoded word is `w` under the union of the
masks. -/

/-- A field put back in its place is the word, masked. -/
theorem place_field (w : Word) (lo k : Nat) :
    place (w.extractLsb' lo k) lo = w &&& place (BitVec.allOnes k) lo := by
  ext i hi
  by_cases hlo : lo ≤ i <;> simp [hlo, BitVec.getLsbD_eq_getElem hi, Bool.and_comm]

theorem place_regField (w : Word) (lo : Nat) : place (regBits (regField w lo)) lo = w &&& place 0b111#3 lo := by
  rw [regBits_regField, place_field]
  rfl

section
variable (w : Word)

@[simp] theorem place_fieldA : place (regBits (fieldA w)) 9 = w &&& 0x0E00#16 := place_regField w 9
@[simp] theorem place_fieldB : place (regBits (fieldB w)) 6 = w &&& 0x01C0#16 := place_regField w 6
@[simp] theorem place_fieldC : place (regBits (fieldC w)) 0 = w &&& 0x0007#16 := place_regField w 0
@[simp] theorem place_imm5Field : place (imm5Field w) 0 = w &&& 0x001F#16 := place_field w 0 5
@[simp] theorem place_off6Field : place (off6Field w) 0 = w &&& 0x003F#16 := place_field w 0 6
@[simp] theorem place_off9Field : place (off9Field w) 0 = w &&& 0x01FF#16 := place_field w 0 9
@[simp] theorem place_off11Field : place (off11Field w) 0 = w &&& 0x07FF#16 := place_field w 0 11
@[simp] theorem place_vect8Field : place (vect8Field w) 0 = w &&& 0x00FF#16 := place_field w 0 8

/-- A bit put back in its place (R93: mode bits, mask bits). -/
@[simp] theorem place_bit (n : Nat) (hn : n < 16) : place (BitVec.ofBool w[n]) n = w &&& 1#16 <<< n := by
  rw [← BitVec.getLsbD_eq_getElem hn, bit_eq_field]
  exact place_field w n 1

/-- `BitVec.and_allOnes` for the literal to which `simp` evaluates a union of all masks. -/
@[simp] theorem and_all_bits : w &&& 0xFFFF#16 = w := BitVec.and_allOnes

end

section
variable {w : Word} {op : Opcode}

theorem place_opcode (hop : Opcode.ofBits (opcodeField w) = op) : place op.bits 12 = w &&& 0xF000#16 := by
  rw [← hop, Opcode.bits_ofBits]
  exact place_field w 12 4

theorem place_mode_set {n : Nat} {hn : n < 16} (hmode : w[n] = true) : place 0b1#1 n = w &&& 1#16 <<< n := by
  rw [← place_bit w n hn, hmode]
  rfl

/-- A mode bit that is 0 may stand in a mask or not. -/
theorem and_or_mode_clear {n : Nat} {hn : n < 16} (hmode : w[n] = false) (mask : Word) :
    w &&& (mask ||| 1#16 <<< n) = w &&& mask := by
  have hzero : w &&& 1#16 <<< n = 0#16 := by
    rw [← place_bit w n hn, hmode]
    simp [place]
  rw [BitVec.and_or_distrib_left, hzero, BitVec.or_zero]

/-! An encoder given the fields of `w` for its operands, and its own opcode and mode bit found in `w`. -/

theorem encodeBr_of_fields (hop : Opcode.ofBits (opcodeField w) = .br) :
    encodeBr w[11] w[10] w[9] (off9Field w) = w := by
  simp [encodeBr, place_opcode hop, ← BitVec.and_or_distrib_left]

theorem encodePc9_of_fields (hop : Opcode.ofBits (opcodeField w) = op) :
    encodePc9 op (fieldA w) (off9Field w) = w := by
  simp [encodePc9, place_opcode hop, ← BitVec.and_or_distrib_left]

theorem encodeB6_of_fields (hop : Opcode.ofBits (opcodeField w) = op) :
    encodeB6 op (fieldA w) (fieldB w) (off6Field w) = w := by
  simp [encodeB6, place_opcode hop, ← BitVec.and_or_distrib_left]

theorem encodeOpi_of_fields (hop : Opcode.ofBits (opcodeField w) = op) (hmode : w[5] = true) :
    encodeOpi op (fieldA w) (fieldB w) (imm5Field w) = w := by
  simp [encodeOpi, place_opcode hop, place_mode_set hmode, ← BitVec.and_or_distrib_left]

theorem encodeOpr_of_fields (hop : Opcode.ofBits (opcodeField w) = op) (hmode : w[5] = false) :
    encodeOpr op (fieldA w) (fieldB w) (fieldC w) = w &&& ~~~0x0018#16 := by
  simpa [encodeOpr, place_opcode hop, ← BitVec.and_or_distrib_left]
    using (and_or_mode_clear hmode 0xFFC7#16).symm

theorem encodeJsr_of_fields (hop : Opcode.ofBits (opcodeField w) = .jsr) (hmode : w[11] = true) :
    encodeJsr (off11Field w) = w := by
  simp [encodeJsr, place_opcode hop, place_mode_set hmode, ← BitVec.and_or_distrib_left]

theorem encodeBase_of_fields (hop : Opcode.ofBits (opcodeField w) = op) :
    encodeBase op (fieldB w) = w &&& 0xF1C0#16 := by
  simp [encodeBase, place_opcode hop, ← BitVec.and_or_distrib_left]

theorem encodeNot_of_fields (hop : Opcode.ofBits (opcodeField w) = .not) :
    encodeNot (fieldA w) (fieldB w) = w &&& ~~~0x003F#16 ||| 0x003F#16 := by
  have hfill : place 0b111111#6 0 = 0x003F#16 := rfl
  simp [encodeNot, place_opcode hop, hfill, ← BitVec.and_or_distrib_left]

theorem encodeTrap_of_fields (hop : Opcode.ofBits (opcodeField w) = .trap) :
    encodeTrap (vect8Field w) = w &&& 0xF0FF#16 := by
  simp [encodeTrap, place_opcode hop, ← BitVec.and_or_distrib_left]

end

theorem encode_decodeTrap (v : Byte) : encode (decodeTrap v) = encodeTrap v := by revert v; decide

/-- By format: what the encoder makes of the fields of `w` is `w` outside the ignored bits. -/
theorem encode_decode (w : Word) :
    encode (decode w) &&& ~~~ignoredBits (decode w) = w &&& ~~~ignoredBits (decode w) := by
  cases hop : Opcode.ofBits (opcodeField w) with
  | br => simp [decode, hop, encode, encodeBr_of_fields hop]
  | ld | st | ldi | sti | lea => simp [decode, hop, encode, encodePc9_of_fields hop]
  | ldr | str => simp [decode, hop, encode, encodeB6_of_fields hop]
  | add | and =>
    cases hmode : w[5] with
    | true => simp [decode, hop, hmode, encode, encodeOpi_of_fields hop hmode]
    | false => simp [decode, hop, hmode, encode, encodeOpr_of_fields hop hmode, ignoredBits, BitVec.and_assoc]
  | jsr =>
    cases hmode : w[11] with
    | true => simp [decode, hop, hmode, encode, encodeJsr_of_fields hop hmode]
    | false =>
      simpa [decode, hop, hmode, encode, encodeBase_of_fields hop, ignoredBits, BitVec.and_assoc]
        using (and_or_mode_clear hmode 0xF1C0#16).symm
  | rti | res => simp [decode, hop, encode, place_opcode hop, ignoredBits, BitVec.and_assoc]
  | not =>
    simp [decode, hop, encode, encodeNot_of_fields hop, ignoredBits, BitVec.and_or_distrib_right, BitVec.and_assoc]
  | jmp => simp [decode, hop, encode, encodeBase_of_fields hop, ignoredBits, BitVec.and_assoc]
  | trap => simp [decode, hop, encode_decodeTrap, encodeTrap_of_fields hop, BitVec.and_assoc]

/-- Settles O5, format by format. -/
theorem encodeOfDecodeKeepsUsedBits : Obligations.EncodeOfDecodeKeepsUsedBits := fun w =>
  ⟨decode_wf w, encode_decode w⟩

/-! ## The opcode table (R99) -/

/-- A mask of the opcode and one more bit tells them both. -/
theorem and_opcode_mode {w : Word} {op : Opcode} (hop : Opcode.ofBits (opcodeField w) = op) (n : Nat)
    (hn : n < 16) :
    w &&& (0xF000#16 ||| 1#16 <<< n) = place op.bits 12 ||| place (BitVec.ofBool w[n]) n := by
  rw [BitVec.and_or_distrib_left, place_opcode hop, place_bit]

/-- A row of a trap sees the opcode and the vector alone. -/
theorem decodeTrap_selects_tableRow (v : Byte) :
    0xF0FF#16 &&& (decodeTrap v).tableRow.1 = (decodeTrap v).tableRow.1 ∧
    encodeTrap v &&& (decodeTrap v).tableRow.1 = (decodeTrap v).tableRow.2 := by
  revert v; decide

theorem decode_selects_tableRow (w : Word) : w &&& (decode w).tableRow.1 = (decode w).tableRow.2 := by
  cases hop : Opcode.ofBits (opcodeField w) with
  | br | ld | st | ldi | sti | lea | ldr | str | rti | res | not | jmp =>
    simp only [decode, hop, Instr.tableRow]
    exact (place_opcode hop).symm
  | add | and =>
    have hrow := and_opcode_mode hop 5 (by decide)
    cases hmode : w[5] <;> simpa [decode, hop, hmode, Instr.tableRow, place, Opcode.bits] using hrow
  | jsr =>
    have hrow := and_opcode_mode hop 11 (by decide)
    cases hmode : w[11] <;> simpa [decode, hop, hmode, Instr.tableRow, place, Opcode.bits] using hrow
  | trap =>
    obtain ⟨hmask, hrow⟩ := decodeTrap_selects_tableRow (vect8Field w)
    simp only [decode, hop]
    rw [← hmask, ← BitVec.and_assoc, ← encodeTrap_of_fields hop, hrow]

/-- Every row's mask holds the opcode. -/
theorem Instr.tableRow_opcode (i : Instr) :
    i.tableRow.1.extractLsb' 12 4 = BitVec.allOnes 4 ∧ i.tableRow.2.extractLsb' 12 4 = i.opcode.bits := by
  cases i <;> simp [Instr.tableRow, Instr.opcode, Opcode.bits]

/-- A trap stands in the catch-all row or in one with the larger mask. -/
theorem decodeTrap_tableRow (v : Byte) :
    (0xF000#16, 0xF000#16) = (decodeTrap v).tableRow ∨ (decodeTrap v).tableRow.1 = 0xF0FF#16 := by
  revert v; decide

/-- A row that selects `w` tells the opcode of `w`, and where its mask is wider the mode bit or the vector. -/
theorem tableRow_of_selects {w : Word} {i : Instr} (h : w &&& i.tableRow.1 = i.tableRow.2) :
    i.tableRow = (decode w).tableRow ∨
      (i.tableRow = (0xF000#16, 0xF000#16) ∧ (decode w).tableRow.1 = 0xF0FF#16) := by
  have hop : Opcode.ofBits (opcodeField w) = i.opcode := by
    obtain ⟨hmask, hmatch⟩ := i.tableRow_opcode
    rw [opcodeField, field_of_masked h 12 4 hmask, hmatch, Opcode.ofBits_bits]
  cases i with
  | trapOther =>
    simp only [decode, hop, Instr.opcode]
    exact (decodeTrap_tableRow (vect8Field w)).imp_right fun hmask => ⟨rfl, hmask⟩
  | trapGetc | trapOut | trapPuts | trapIn | trapPutsp | trapHalt =>
    have hvect := field_of_masked h 0 8 rfl
    left
    simp only [decode, hop, Instr.opcode, vect8Field, hvect]
    rfl
  | addReg | addImm | andReg | andImm =>
    have hmode := bit_of_masked (mask := 0xF020#16) h 5 rfl
    left
    simp only [decode, hop, Instr.opcode, hmode, Instr.tableRow]
    rfl
  | jsr | jsrr =>
    have hmode := bit_of_masked (mask := 0xF800#16) h 11 rfl
    left
    simp only [decode, hop, Instr.opcode, hmode, Instr.tableRow]
    rfl
  | br | ld | st | ldi | sti | lea | ldr | str | rti | res | not | jmp =>
    simp [decode, hop, Instr.opcode, Instr.tableRow]

/-- Settles O7: the row of `decode w` is selected, and a selected row fixes the fields that choose the row. -/
theorem decodeFollowsTheOpcodeTable : Obligations.DecodeFollowsTheOpcodeTable :=
  ⟨decode_selects_tableRow, fun _ _ => tableRow_of_selects⟩

/-! ## Words of the spec's examples (95_test_vectors.md) -/

/-- Settles O8, by running the decoder on each word. -/
theorem exampleWordsDecode : Obligations.ExampleWordsDecode := by
  unfold Obligations.ExampleWordsDecode
  decide

end Sys2Proof

/-! SUPPORT. Proofs of the statements about the instruction cycle (40_cycle.md): fetch and execute, waiting for input,
SetFlags and sign extension, and the invariant of every run. -/

namespace Sys2Proof.Machine

/-! ## How an instruction waits (R123) -/

/-- The state in which an instruction waits: only the environment has acted, and IN has its prompt out. -/
def State.waitingIn (s : State) (i : Instr) : State :=
  if i = .trapIn then { promptedState s with inp := s.inp.turn, stage := .prompted }
  else { s with inp := s.inp.turn, stage := .waiting }

theorem State.waitingIn_of_trapIn {s : State} {i : Instr} (h : i = .trapIn) :
    s.waitingIn i = { promptedState s with inp := s.inp.turn, stage := .prompted } := if_pos h

theorem State.waitingIn_of_ne_trapIn {s : State} {i : Instr} (h : i ≠ .trapIn) :
    s.waitingIn i = { s with inp := s.inp.turn, stage := .waiting } := if_neg h

/-- An instruction that is executed completes, or waits at a read of the input stream with nothing there. -/
theorem exec_completes_or_waits {i : Instr} {s t : State} (h : exec i s = .next t) :
    t.stage = .fetch ∨ (s.awaitsInput i = true ∧ s.inputReady = false ∧ t = s.waitingIn i) := by
  cases i with
  | ld | ldr =>
    rcases finishLoad_memRead_eq_next h with ⟨v, u, -, rfl⟩ | ⟨ha, hready, rfl⟩
    · exact .inl rfl
    · exact .inr ⟨beq_iff_eq.2 ha, hready, rfl⟩
  | ldi dr off9 =>
    rcases execLdi_eq_next h with ⟨ea, u, v, w, -, -, rfl⟩ | hwait
    · exact .inl rfl
    · exact .inr hwait
  | sti sr off9 =>
    rcases execSti_eq_next h with ⟨ea, u, -, rfl⟩ | ⟨ha, hready, rfl⟩
    · exact .inl rfl
    · exact .inr ⟨beq_iff_eq.2 ha, hready, rfl⟩
  | trapGetc =>
    rcases execTrapGetc_eq_next h with ⟨v, u, -, rfl⟩ | ⟨hready, rfl⟩
    · exact .inl rfl
    · exact .inr ⟨rfl, hready, rfl⟩
  | trapIn =>
    rcases execTrapIn_eq_next h with ⟨v, u, -, rfl⟩ | ⟨hready, rfl⟩
    · exact .inl rfl
    · exact .inr ⟨rfl, hready, rfl⟩
  | br | addReg | addImm | st | jsr | jsrr | andReg | andImm | str | rti | not | jmp | res | lea | trapOut | trapPuts
  | trapPutsp | trapHalt | trapOther =>
    cases complete_eq_next h
    exact .inl rfl

/-- A read of the keyboard data register is a `NextChar()` (20_memory.md R54). -/
theorem State.memRead_kbdr (s : State) : s.memRead kbdrAddr = s.nextChar := rfl

/-- LDI reads input at its pointer, or at the word a plain cell points at. -/
theorem State.awaitsInput_ldi_iff {s : State} {dr : RegIx} {off9 : BitVec 9} :
    s.awaitsInput (.ldi dr off9) = true ↔ pcRelative s.pc off9 = kbdrAddr ∨
      (readIntercepted (pcRelative s.pc off9) = false ∧ s.cell (pcRelative s.pc off9) = kbdrAddr) := by
  simp [State.awaitsInput]

/-- A character is no device's address. -/
theorem readIntercepted_zext16 (c : Byte) : readIntercepted (zext16 c) = false := by revert c; decide

theorem zext16_ne_ddrAddr (c : Byte) : zext16 c ≠ ddrAddr := by revert c; decide

/-- The outcome of an instruction whose read of input answers `r`: it waits when the read does, and when the read
gives a character it completes, with nothing more done to the streams. -/
structure EndsRead (r : Access) (o : Host.Outcome State Fault Refusal) : Prop where
  waits : ∀ u, r = .waits u → o = await u
  takes : ∀ c u, r = .value (zext16 c) u → ∃ t, o = complete t ∧ t.inp = u.inp ∧ t.trace = u.trace

theorem EndsRead.of_waits (u : State) : EndsRead (.waits u) (await u) where
  waits := by rintro _ ⟨⟩; rfl
  takes := nofun

theorem EndsRead.of_value {v : Word} {u : State} {o : Host.Outcome State Fault Refusal}
    (h : ∀ c, v = zext16 c → ∃ t, o = complete t ∧ t.inp = u.inp ∧ t.trace = u.trace) :
    EndsRead (.value v u) o where
  waits := nofun
  takes := by rintro c _ ⟨⟩; exact h c rfl

theorem EndsRead.finishLoad (dr : RegIx) (r : Access) : EndsRead r (finishLoad dr r) := by
  cases r with
  | value v u => exact .of_value fun _ _ => ⟨_, rfl, rfl, rfl⟩
  | waits u => exact .of_waits u

/-- An instruction other than IN whose next read is of input ends with that read's answer. -/
theorem exec_endsRead {i : Instr} {s : State} (hawaits : s.awaitsInput i = true) (hi : i ≠ .trapIn) :
    EndsRead s.nextChar (exec i s) := by
  cases i with
  | ld dr off9 =>
    have ha : pcRelative s.pc off9 = kbdrAddr := beq_iff_eq.1 hawaits
    rw [exec, execLd, ha]
    exact .finishLoad dr s.nextChar
  | ldr dr base off6 =>
    have ha : baseOffset (s.reg base) off6 = kbdrAddr := beq_iff_eq.1 hawaits
    rw [exec, execLdr, ha]
    exact .finishLoad dr s.nextChar
  | ldi dr off9 =>
    rcases State.awaitsInput_ldi_iff.1 hawaits with ha | ⟨hplain, hcell⟩
    · rw [exec, execLdi, ha, State.memRead_kbdr]
      cases s.nextChar with
      | value v u =>
        refine .of_value fun c hc => ?_
        have hword := u.memRead_plain (hc ▸ readIntercepted_zext16 c)
        exact ⟨_, congrArg (Machine.finishLoad dr) hword, rfl, rfl⟩
      | waits u => exact .of_waits u
    · rw [exec, execLdi, s.memRead_plain hplain, hcell]
      exact .finishLoad dr s.nextChar
  | sti sr off9 =>
    have ha : pcRelative s.pc off9 = kbdrAddr := beq_iff_eq.1 hawaits
    rw [exec, execSti, ha, State.memRead_kbdr]
    cases s.nextChar with
    | value v u =>
      exact .of_value fun c hc => ⟨_, rfl, u.memWrite_inp _ _,
        (u.memWrite_trace _ _).trans (if_neg (hc ▸ zext16_ne_ddrAddr c))⟩
    | waits u => exact .of_waits u
  | trapGetc =>
    rw [exec, execTrapGetc]
    cases s.nextChar with
    | value v u => exact .of_value fun _ _ => ⟨_, rfl, rfl, rfl⟩
    | waits u => exact .of_waits u
  | trapIn => exact absurd rfl hi
  | br | addReg | addImm | st | jsr | jsrr | andReg | andImm | str | rti | not | jmp | res | lea | trapOut | trapPuts
  | trapPutsp | trapHalt | trapOther => cases hawaits

/-- An instruction whose next read is of input waits when nothing is there. -/
theorem exec_waits {i : Instr} {s : State} (hawaits : s.awaitsInput i = true) (hready : s.inputReady = false) :
    exec i s = .next (s.waitingIn i) := by
  by_cases hi : i = .trapIn
  · have hinp : (promptedState s).inp = s.inp := by rw [promptedState_eq]
    have hread := State.nextChar_of_not_ready ((promptedState_inputReady s).trans hready)
    rw [State.waitingIn_of_trapIn hi, hi, exec, execTrapIn, hread, hinp]
  · rw [State.waitingIn_of_ne_trapIn hi]
    exact (exec_endsRead hawaits hi).waits _ (State.nextChar_of_not_ready hready)

/-- Settles O46: the wait of an instruction other than IN is `waitingIn`, with nothing there. -/
theorem waitingHasNoEffect : Obligations.WaitingHasNoEffect := by
  intro i s t hi h hstage
  rcases exec_completes_or_waits h with hfetch | ⟨-, hready, rfl⟩
  · exact absurd hfetch hstage
  · obtain ⟨hqueue, heof⟩ := s.inputReady_eq_false_iff.1 hready
    rw [State.waitingIn_of_ne_trapIn hi]
    exact ⟨rfl, hqueue, heof⟩

/-! ## What the invariant says of a wait -/

/-- What an instruction reads next depends on the pc, the registers and memory alone. -/
theorem State.awaitsInput_congr {s t : State} (i : Instr) (hpc : t.pc = s.pc) (hregs : t.regs = s.regs)
    (hmem : t.mem = s.mem) : t.awaitsInput i = s.awaitsInput i := by
  cases i <;> simp [State.awaitsInput, hpc, State.reg_congr hregs, State.cell_congr hmem]

/-- A wait in the latched instruction, for input that is not there, is one the invariant allows. -/
theorem State.waitingIn_stageOk {s : State} (hrun : s.running = true)
    (hawaits : s.awaitsInput (decode s.ir) = true) (hready : s.inputReady = false) :
    (s.waitingIn (decode s.ir)).stageOk = true := by
  obtain ⟨hqueue, heof⟩ := s.inputReady_eq_false_iff.1 hready
  by_cases hi : decode s.ir = .trapIn
  · rw [State.waitingIn_of_trapIn hi]
    simp [State.stageOk, promptedState_eq, hrun, hi, hqueue, heof]
  · rw [State.waitingIn_of_ne_trapIn hi]
    have hawaits' := (State.awaitsInput_congr (t := { s with inp := s.inp.turn, stage := .waiting }) (decode s.ir)
      rfl rfl rfl).trans hawaits
    simp only [State.stageOk, hawaits']
    simp [hrun, hi, hqueue, heof]

/-- What the invariant says of a core that waits (R123). -/
theorem State.inv_waits {s : State} (hinv : s.inv = true) (hstage : s.stage ≠ .fetch) :
    s.running = true ∧ s.awaitsInput (decode s.ir) = true ∧ (decode s.ir = .trapIn ↔ s.stage = .prompted) ∧
      s.inp.queue = [] ∧ s.inp.eof = false := by
  have hok : s.stageOk = true := (Bool.and_eq_true_iff.1 hinv).2
  cases hs : s.stage with
  | fetch => exact absurd hs hstage
  | waiting =>
    simp only [State.stageOk, hs, Bool.and_eq_true, bne_iff_ne, List.isEmpty_iff, Bool.not_eq_true'] at hok
    obtain ⟨⟨⟨⟨hrun, hawaits⟩, hi⟩, hqueue⟩, heof⟩ := hok
    exact ⟨hrun, hawaits, by simp [hi], hqueue, heof⟩
  | prompted =>
    simp only [State.stageOk, hs, Bool.and_eq_true, beq_iff_eq, List.isEmpty_iff, Bool.not_eq_true'] at hok
    obtain ⟨⟨⟨hrun, hi⟩, hqueue⟩, heof⟩ := hok
    exact ⟨hrun, by rw [hi]; rfl, by simp [hi], hqueue, heof⟩

/-! ## Every step keeps the invariant -/

/-- The issued instruction is the latched word's (R27). -/
theorem State.issued_decode_ir {s u : State} {i : Instr} (h : s.issued = some (i, u)) : decode u.ir = i := by
  obtain ⟨-, ⟨-, w, v, -, rfl, rfl⟩ | ⟨-, rfl, rfl⟩⟩ := State.issued_eq_some h <;> rfl

/-- Issuing an instruction leaves memory alone. -/
theorem State.issued_mem {s u : State} {i : Instr} (h : s.issued = some (i, u)) : u.mem = s.mem := by
  obtain ⟨-, ⟨-, w, v, hread, -, rfl⟩ | ⟨-, -, rfl⟩⟩ := State.issued_eq_some h
  · exact (StreamsOnly.memRead hread).mem
  · rfl

/-- Every instruction keeps the canonical form of memory: the stores by `MemWrite`, the others by leaving memory
alone. -/
theorem exec_wf {i : Instr} {s t : State} (h : exec i s = .next t) (hwf : s.mem.wf = true) : t.mem.wf = true := by
  cases hstore : s.storeOf i with
  | none => rwa [exec_mem_of_storeOf_eq_none hstore h]
  | some store =>
    obtain ⟨u, hu, hexec⟩ := exec_of_storeOf hstore
    cases complete_eq_next (hexec.symm.trans h)
    exact State.memWrite_wf _ _ (hu.mem ▸ hwf)

/-- Settles O50: memory by what an instruction stores, the stage by how an instruction waits. -/
theorem stepKeepsTheInvariant : Obligations.StepKeepsTheInvariant := by
  intro s t hinv h
  have hwf : s.mem.wf = true := (Bool.and_eq_true_iff.1 hinv).1
  rcases step_eq_next h with ⟨-, rfl⟩ | ⟨-, hstage, -, -, rfl⟩ | ⟨i, u, hissued, hexec⟩
  · exact hinv
  · exact State.inv_of_fetch hstage hwf
  · have hwf' : t.mem.wf = true := exec_wf hexec (State.issued_mem hissued ▸ hwf)
    rcases exec_completes_or_waits hexec with hfetch | ⟨hawaits, hready, rfl⟩
    · exact State.inv_of_fetch hfetch hwf'
    · cases State.issued_decode_ir hissued
      exact Bool.and_eq_true_iff.2 ⟨hwf', State.waitingIn_stageOk (State.issued_running hissued) hawaits hready⟩

/-! ## A waiting core goes on -/

/-- A running core in a cycle that waits executes the latched instruction (R123). -/
theorem step_of_waiting {s : State} (hrun : s.running = true) (hstage : s.stage ≠ .fetch) :
    step s = exec (decode s.ir) s := by
  apply step_of_issued
  cases hs : s.stage with
  | fetch => exact absurd hs hstage
  | waiting | prompted => simp [State.issued, hrun, hs]

/-- Waiting again in a state that waits already, with no turn of the environment, changes nothing. -/
theorem State.waitingIn_self {s : State} {i : Instr} (hturn : s.inp.turn = s.inp) (hstage : s.stage ≠ .fetch)
    (hprompt : i = .trapIn ↔ s.stage = .prompted) : s.waitingIn i = s := by
  by_cases hi : i = .trapIn
  · have hs := hprompt.1 hi
    have hprompted : promptedState s = s := if_pos hs
    rw [State.waitingIn_of_trapIn hi, hprompted, hturn, ← hs]
  · have hs : s.stage = .waiting := by
      cases hs : s.stage with
      | fetch => exact absurd hs hstage
      | waiting => rfl
      | prompted => exact absurd (hprompt.2 hs) hi
    rw [State.waitingIn_of_ne_trapIn hi, hturn, ← hs]

/-- Settles O48: with no turn to come, the wait is a state its own step leaves as it is. -/
theorem waitWithoutInputNeverEnds : Obligations.WaitWithoutInputNeverEnds := by
  intro s k hinv hstage henv
  obtain ⟨hrun, hawaits, hprompt, hqueue, heof⟩ := State.inv_waits hinv hstage
  have hturn : s.inp.turn = s.inp := InputStream.turn_of_env_nil henv
  have hready : s.inputReady = false := by simp [State.inputReady, hturn, hqueue, heof]
  have hstep : step s = .next s := by
    rw [step_of_waiting hrun hstage, exec_waits hawaits hready, State.waitingIn_self hturn hstage hprompt]
  exact ⟨run_of_step_self hstep k, hrun⟩

/-! ## A character ends the wait (R36) -/

/-- An instruction whose next read is of input takes the character that is there and completes; that is all it
does to the input stream, and its first event. -/
theorem exec_takes_char {i : Instr} {s : State} {c : Byte} {rest : List Byte} (hawaits : s.awaitsInput i = true)
    (hprompt : i = .trapIn → s.stage = .prompted) (hq : s.inp.turn.queue = c :: rest) :
    ∃ t, exec i s = .next t ∧ t.stage = .fetch ∧ t.inp = { s.inp.turn with queue := rest } ∧
      ∃ more, t.trace = s.trace ++ .inChar c :: more := by
  have hread := State.nextChar_of_head hq
  by_cases hi : i = .trapIn
  · have hprompted : promptedState s = s := if_pos (hprompt hi)
    rw [hi, exec, execTrapIn, hprompted, hread]
    exact ⟨_, rfl, rfl, rfl, [.out (lowByte (zext16 c))], List.append_assoc _ _ _⟩
  · obtain ⟨t, hexec, hinp, htrace⟩ := (exec_endsRead hawaits hi).takes c _ hread
    exact ⟨_, hexec, rfl, hinp, [], htrace⟩

/-- A turn that brings one character, to a stream with nothing queued and its end not yet signalled. -/
theorem InputStream.turn_of_one_key {i : InputStream} {c : Byte} {rest : List EnvAct} (hqueue : i.queue = [])
    (heof : i.eof = false) (henv : i.env = .key c :: .pass :: rest) :
    i.turn = { queue := [c], eof := false, env := rest } := by
  simp [InputStream.turn, envTurn, hqueue, heof, henv]

/-- Settles O49: the waiting instruction's read takes the character. -/
theorem arrivalEndsTheWait : Obligations.ArrivalEndsTheWait := by
  intro s c rest hinv hstage henv
  obtain ⟨hrun, hawaits, hprompt, hqueue, heof⟩ := State.inv_waits hinv hstage
  have hturn := InputStream.turn_of_one_key hqueue heof henv
  obtain ⟨t, hexec, hfetch, hinp, htrace⟩ := exec_takes_char hawaits hprompt.1 (congrArg InputStream.queue hturn)
  rw [hturn] at hinp
  exact ⟨t, (step_of_waiting hrun hstage).trans hexec, hfetch, by rw [hinp], by rw [hinp], htrace⟩

/-! ## Fetch and execute (R120, R122, R123) -/

/-- A fetch that waits is the whole step. -/
theorem step_of_fetch_waits {s u : State} (hrun : s.running = true) (hstage : s.stage = .fetch)
    (hread : s.memRead s.pc = .waits u) : step s = .next u := by
  simp [step, hrun, hstage, beginCycle, State.fetch, hread]

/-- A fetch that is answered issues the word's instruction. -/
theorem State.issued_of_fetch {s u : State} {w : Word} (hrun : s.running = true) (hstage : s.stage = .fetch)
    (hread : s.memRead s.pc = .value w u) : s.issued = some (decode w, u.latch w) := by
  simp [State.issued, hrun, hstage, State.fetch, hread]

/-- A HALTED core keeps its state (60_exceptions.md R245). -/
theorem step_of_halted {s : State} (hrun : s.running = false) : step s = .next s := by
  simp [step, hrun, haltedCycle]

/-- Settles O39, by what the fetch answers. -/
theorem stepRunsTheDecodedInstruction : Obligations.StepRunsTheDecodedInstruction := by
  refine ⟨fun s u w hrun hstage hread => ?_, fun s hrun hstage h₁ h₂ h₃ => ?_, fun s t hrun h => ?_⟩
  · rw [step_of_issued (State.issued_of_fetch hrun hstage hread), State.latch, (StreamsOnly.memRead hread).pc]
  · exact step_of_plain_fetch hrun hstage ((readIntercepted_eq_false_iff s.pc).2 ⟨h₁, h₂, h₃⟩) rfl
  · cases (step_of_halted hrun).symm.trans h
    rfl

/-- Settles O40. -/
theorem waitingCyclesGoOn : Obligations.WaitingCyclesGoOn :=
  ⟨fun _ _ hrun hstage hread => ⟨step_of_fetch_waits hrun hstage hread, (State.memRead_waits hread).2.2⟩,
    fun _ => step_of_waiting⟩

/-! ## The first attempt to read with nothing there -/

/-- A read waits only at the keyboard data register, with nothing there (20_memory.md R52). -/
theorem State.readable_eq_false_iff (s : State) (a : Word) :
    s.readable a = false ↔ a = kbdrAddr ∧ s.inputReady = false := by
  simp [State.readable]

/-- Settles O58: each reader's read is one `awaitsInput` knows, and a fetch waits by itself. -/
theorem readersWaitWithoutInput : Obligations.ReadersWaitWithoutInput := by
  refine ⟨fun dr off9 s h => ?ld, fun dr base off6 s h => ?ldr, fun dr off9 s h => ?ldi,
    fun dr off9 s u ea hptr h => ?ldiSecond, fun sr off9 s h => ?sti, fun s h => exec_waits rfl h,
    fun s hrun hstage h => step_of_fetch_waits hrun hstage (State.memRead_of_not_readable h),
    fun s a => (s.readable_eq_false_iff a).trans (and_congr_right' s.inputReady_eq_false_iff)⟩
  case ldiSecond =>
    obtain ⟨hplain, -, hcell, hready, -⟩ := State.memRead_twice_waits hptr (State.memRead_of_not_readable h)
    exact exec_waits (State.awaitsInput_ldi_iff.2 (.inr ⟨hplain, hcell⟩)) hready
  all_goals obtain ⟨ha, hready⟩ := (s.readable_eq_false_iff _).1 h
  case ldi => exact exec_waits (State.awaitsInput_ldi_iff.2 (.inl ha)) hready
  case ld | ldr | sti => exact exec_waits (beq_iff_eq.2 ha) hready

/-! ## A word placed at the fetch (20_memory.md R62) -/

/-- The word is placed where no device answers. -/
theorem placeAtFetch_pc_plain (s : State) (w : Word) : readIntercepted (placeAtFetch s w).pc = false := by
  unfold placeAtFetch
  cases h : readIntercepted s.pc with
  | true => rfl
  | false => exact h

theorem placeAtFetch_pc_of_plain {s : State} (w : Word) (h : readIntercepted s.pc = false) :
    (placeAtFetch s w).pc = s.pc := by
  simp [placeAtFetch, h]

/-- The word's cell is the only one written. -/
theorem cell_placeAtFetch (s : State) (w a : Word) :
    (placeAtFetch s w).cell a = (s.setCell (placeAtFetch s w).pc w).cell a := rfl

/-- Settles O42: the word is fetched from the cell it was placed in. -/
theorem placedWordRunsNext : Obligations.PlacedWordRunsNext := by
  intro s w hw
  have hword : s.withFetchWord 16 w = placeAtFetch s (BitVec.ofNat 16 w) := by
    rw [State.withFetchWord, Nat.mod_eq_of_lt (show w < 2 ^ 16 from hw)]
  generalize BitVec.ofNat 16 w = word at hword ⊢
  have hcell : (placeAtFetch s word).cell (placeAtFetch s word).pc = word := by
    rw [cell_placeAtFetch, State.cell_setCell_same]
  refine ⟨(placeAtFetch s word).latch word, ?_, rfl, rfl, rfl, rfl, rfl, rfl, rfl, rfl, ?_, fun a ha => ?_,
    fun h => ?_⟩
  · rw [hword]
    exact step_of_plain_fetch rfl rfl (placeAtFetch_pc_plain s word) hcell
  · rw [State.latch_pc, BitVec.add_sub_cancel, State.cell_latch, hcell]
  · rw [State.latch_pc, BitVec.add_sub_cancel] at ha
    rw [State.cell_latch, cell_placeAtFetch, State.cell_setCell_other s word ha]
  · rw [State.latch_pc, placeAtFetch_pc_of_plain word h]

/-! ## SetFlags and sign extension (R124, R126) -/

/-- The flag SetFlags chooses, by the sign bit and the zero word (R124). -/
theorem flagOf_iff (v : Word) :
    (flagOf v = .negative ↔ v.getLsbD 15 = true) ∧ (flagOf v = .zero ↔ v = 0#16) ∧
      (flagOf v = .positive ↔ v.getLsbD 15 = false ∧ v ≠ 0#16) := by
  unfold flagOf
  cases hsign : v.getLsbD 15 with
  | true =>
    have hv : v ≠ 0#16 := by rintro rfl; cases hsign
    simp [hv]
  | false => by_cases hv : v = 0#16 <;> simp [hv]

/-- Settles O9, by the three cases of `flagOf` and its signed reading. -/
theorem setFlagsDescribesTheWord : Obligations.SetFlagsDescribesTheWord := by
  intro s v
  obtain ⟨hneg, hzero, hpos⟩ := flagOf_iff v
  exact ⟨hneg, hzero, hpos, flagsSay_of_cond rfl, rfl⟩

/-- Truncating a sign-extended field gives it back, for every width that fits. -/
theorem setWidth_sext16 {k : Nat} (f : BitVec k) (hk : k ≤ 16) : (sext16 f).setWidth k = f := by
  apply BitVec.eq_of_getLsbD_eq
  intro i hi
  rw [sext16_eq_signExtend f hk, BitVec.getLsbD_setWidth, BitVec.getLsbD_signExtend]
  simp [hi, show i < 16 by omega]

/-- Settles O10, for every width up to 16 at once, `sext16` being the library's sign extension. -/
theorem signExtensionKeepsTheValue : Obligations.SignExtensionKeepsTheValue := by
  intro k hmem
  have hk : k ≤ 16 := by revert k; decide
  intro f
  refine ⟨?_, setWidth_sext16 f hk, fun hclear => ?_, fun hset n hkn hn => ?_⟩
  · rw [sext16_eq_signExtend f hk, BitVec.toInt_signExtend_of_le hk]
  · rw [← BitVec.msb_eq_getLsbD_last] at hclear
    rw [sext16_eq_signExtend f hk, BitVec.signExtend_eq_setWidth_of_msb_false hclear, BitVec.toNat_setWidth_of_le hk]
  · rw [← BitVec.msb_eq_getLsbD_last] at hset
    rw [sext16_eq_signExtend f hk, BitVec.getLsbD_signExtend]
    simp [hn, hset, hkn.not_gt]

end Sys2Proof.Machine

/-! SUPPORT. Proofs of the statements about the conditional branch (41_branch.md). -/

namespace Sys2Proof.Machine

/-! ## The branch test (R140, 30_encoding.md R95) -/

/-- Testing a mask against a one-hot value reads the mask's bit there. -/
theorem decide_and_twoPow_ne_zero {w i : Nat} (m : BitVec w) (hi : i < w) :
    decide (m &&& BitVec.twoPow w i ≠ 0#w) = m.getLsbD i := by
  have hone : BitVec.twoPow w i ≠ 0#w := fun h => by simpa [hi] using congrArg (BitVec.getLsbD · i) h
  rw [BitVec.and_twoPow]
  cases m.getLsbD i with
  | true => exact decide_eq_true hone
  | false => exact decide_eq_false (not_not_intro rfl)

/-- The bits of a BR mask (D3): n is bit 2, z is bit 1, p is bit 0. -/
theorem getLsbD_branchMask (n z p : Bool) :
    (BitVec.ofBool n ++ BitVec.ofBool z ++ BitVec.ofBool p).getLsbD 2 = n ∧
      (BitVec.ofBool n ++ BitVec.ofBool z ++ BitVec.ofBool p).getLsbD 1 = z ∧
      (BitVec.ofBool n ++ BitVec.ofBool z ++ BitVec.ofBool p).getLsbD 0 = p := by
  simp only [BitVec.getLsbD_append, BitVec.getLsbD_ofBool]
  simp

/-- Settles O12: each flag's one-hot value picks out the mask bit that the case of `branchTaken` returns. -/
theorem branchTestIsMaskTest : Obligations.BranchTestIsMaskTest := by
  intro n z p c
  obtain ⟨hn, hz, hp⟩ := getLsbD_branchMask n z p
  cases c with
  | negative => exact hn.symm.trans (decide_and_twoPow_ne_zero (i := 2) _ (by decide)).symm
  | zero => exact hz.symm.trans (decide_and_twoPow_ne_zero (i := 1) _ (by decide)).symm
  | positive => exact hp.symm.trans (decide_and_twoPow_ne_zero (i := 0) _ (by decide)).symm

/-- A branch is taken when a set mask bit names the flag held. -/
theorem branchTaken_iff (n z p : Bool) (c : Flag) :
    branchTaken n z p c = true ↔
      (n = true ∧ c = .negative) ∨ (z = true ∧ c = .zero) ∨ (p = true ∧ c = .positive) := by
  cases c <;> simp [branchTaken]

theorem branchTaken_mask_none (c : Flag) : branchTaken false false false c = false := by cases c <;> rfl

theorem branchTaken_mask_all (c : Flag) : branchTaken true true true c = true := by cases c <;> rfl

/-! ## BR (R140, R141) -/

/-- A cycle that completes with another pc and nothing else written. -/
theorem onlyTransfer_of_pc (s : State) (pc : Word) : OnlyTransfer s { s with pc := pc, stage := .fetch } [] :=
  ⟨fun _ _ => rfl, rfl, fun _ => rfl, ⟨rfl, rfl, rfl⟩, ⟨rfl, rfl⟩, rfl⟩

/-- Settles O21: BR writes the pc alone, and `branchTaken` says which of the two values. -/
theorem branchEffect : Obligations.BranchEffect := by
  intro n z p off9 s
  have htaken (h : branchTaken n z p s.cond = true) :
      ((if branchTaken n z p s.cond then pcRelative s.pc off9 else s.pc).toNat : Int) =
        ((s.pc.toNat : Int) + off9.toInt) % 65536 := by
    rw [if_pos h, pcRelative_toNat (by decide)]
  rw [← branchTaken_iff]
  refine ⟨_, execBr_eq n z p off9 s, htaken, fun h => if_neg h, ?none, ?all, onlyTransfer_of_pc s _⟩
  case none =>
    rintro rfl rfl rfl
    exact if_neg (Bool.eq_false_iff.1 (branchTaken_mask_none s.cond))
  case all =>
    rintro rfl rfl rfl
    exact htaken (branchTaken_mask_all s.cond)

end Sys2Proof.Machine

/-! SUPPORT. Proofs of the statements about the operate instructions (42_operate.md). -/

namespace Sys2Proof.Machine

/-! ## An instruction that ends by writing a result (R125, R131) -/

/-- Writing a result and its flags, and completing the cycle, leaves all else. -/
theorem onlyResult_setResult (s : State) (dr : RegIx) (v : Word) :
    OnlyResult s { s.setResult dr v with stage := .fetch } dr := by
  have hreg : ({ s.setResult dr v with stage := .fetch } : State).reg dr = v := s.reg_setResult_same dr v
  refine ⟨?flags, keepsRegs_of_regs_eq_set (v := v) rfl, rfl, fun _ => rfl, ⟨rfl, rfl, rfl⟩, ⟨rfl, rfl⟩, rfl⟩
  case flags =>
    rw [hreg]
    exact flagsSay_of_cond rfl

/-- An instruction whose meaning is to write the result `v` completes with `v` in the register, its flags,
and nothing else changed. -/
theorem exec_result {i : Instr} {s : State} {dr : RegIx} {v : Word}
    (hexec : exec i s = complete (s.setResult dr v)) :
    ∃ t, exec i s = .next t ∧ t.reg dr = v ∧ OnlyResult s t dr :=
  ⟨_, hexec, s.reg_setResult_same dr v, onlyResult_setResult s dr v⟩

/-! ## The results (R126, R128, R150 to R154) -/

/-- The sum with a sign-extended immediate is the signed sum modulo 2^16, as for an effective address. -/
theorem add_sext16_toNat {k : Nat} (hk : k ≤ 16) (x : Word) (imm : BitVec k) :
    ((x + sext16 imm).toNat : Int) = ((x.toNat : Int) + imm.toInt) % 65536 :=
  pcRelative_toNat hk x imm

/-- The bits of a sign-extended field: its own, then its top bit repeated (R126). -/
theorem getLsbD_sext16 {k : Nat} (f : BitVec k) (hk : k ≤ 16) {n : Nat} (hn : n < 16) :
    (sext16 f).getLsbD n = f.getLsbD (min n (k - 1)) := by
  rw [sext16_eq_signExtend f hk, BitVec.getLsbD_signExtend]
  by_cases hnk : n < k
  · simp [hn, hnk, Nat.min_eq_left (Nat.le_sub_one_of_lt hnk)]
  · simp [hn, hnk, BitVec.msb_eq_getLsbD_last, Nat.min_eq_right (show k - 1 ≤ n by omega)]

/-- Settles O22: the word sum is the sum modulo 2^16, in either mode. -/
theorem addEffect : Obligations.AddEffect := by
  refine ⟨fun dr sr1 sr2 s => ?register, fun dr sr1 imm5 s => ?immediate⟩
  case register =>
    obtain ⟨t, hexec, hresult, honly⟩ := exec_result (i := .addReg dr sr1 sr2) (s := s) rfl
    exact ⟨t, hexec, by rw [hresult, BitVec.toNat_add], honly⟩
  case immediate =>
    obtain ⟨t, hexec, hresult, honly⟩ := exec_result (i := .addImm dr sr1 imm5) (s := s) rfl
    exact ⟨t, hexec, by rw [hresult, add_sext16_toNat (by decide)], honly⟩

/-- Settles O23: the bits of the word conjunction, those of the immediate being `getLsbD_sext16`. -/
theorem andEffect : Obligations.AndEffect := by
  refine ⟨fun dr sr1 sr2 s => ?register, fun dr sr1 imm5 s => ?immediate⟩
  case register =>
    obtain ⟨t, hexec, hresult, honly⟩ := exec_result (i := .andReg dr sr1 sr2) (s := s) rfl
    exact ⟨t, hexec, fun n _ => by rw [hresult, BitVec.getLsbD_and], honly⟩
  case immediate =>
    obtain ⟨t, hexec, hresult, honly⟩ := exec_result (i := .andImm dr sr1 imm5) (s := s) rfl
    exact ⟨t, hexec, fun n hn => by rw [hresult, BitVec.getLsbD_and, getLsbD_sext16 imm5 (by decide) hn], honly⟩

/-- Settles O24: the complement of a word is 0xFFFF minus it. -/
theorem notEffect : Obligations.NotEffect := by
  intro dr sr s
  obtain ⟨t, hexec, hresult, honly⟩ := exec_result (i := .not dr sr) (s := s) rfl
  exact ⟨t, hexec, by rw [hresult, BitVec.toNat_not], honly⟩

end Sys2Proof.Machine

/-! SUPPORT. Proofs of the statements about the loads and LEA (43_load.md). -/

namespace Sys2Proof.Machine

/-! ## An instruction that ends by writing the word it read (R160 to R162) -/

/-- Reads that move the streams alone, then the result `v` written: the end of a load. -/
theorem onlyLoaded_setResult {s u : State} (dr : RegIx) (v : Word) (hu : StreamsOnly s u) :
    OnlyLoaded s u { u.setResult dr v with stage := .fetch } dr v :=
  ⟨u.reg_setResult_same dr v, flagsSay_of_cond rfl, keepsRegs_of_regs_eq_set (v := v) (by simp [hu.regs]), hu.pc,
    hu.keepsCells, hu.keepsControl, rfl, rfl, rfl⟩

/-- An instruction whose meaning, once its reads so far have left `u`, is to load the word at `a`, completes
wherever that read needs no wait. -/
theorem exec_load {i : Instr} {s u : State} {dr : RegIx} {a : Word}
    (hexec : exec i s = finishLoad dr (u.memRead a)) (hu : StreamsOnly s u) (hready : u.readable a = true) :
    ∃ v w t, u.memRead a = .value v w ∧ exec i s = .next t ∧ OnlyLoaded s w t dr v := by
  obtain ⟨v, w, hread⟩ := State.memRead_of_readable hready
  rw [hread] at hexec
  exact ⟨v, w, _, hread, hexec, onlyLoaded_setResult dr v (hu.trans (.memRead hread))⟩

/-- Settles O26: LD and LDR are one load each, with no read before it. -/
theorem loadEffect : Obligations.LoadEffect :=
  ⟨fun _ _ s => exec_load rfl (.refl s), fun _ _ _ s => exec_load rfl (.refl s)⟩

/-- LDI, its pointer read answered, is a load through the pointer in the state that read left (R161). -/
theorem execLdi_of_pointer {off9 : BitVec 9} {s u : State} {ea : Word} (dr : RegIx)
    (hptr : s.memRead (pcRelative s.pc off9) = .value ea u) :
    execLdi dr off9 s = finishLoad dr (u.memRead ea) := by
  rw [execLdi, hptr]

/-- Settles O27: the pointer read moves the streams alone, and the second read is the load. -/
theorem loadIndirectEffect : Obligations.LoadIndirectEffect :=
  fun dr _ _ _ _ hptr => exec_load (execLdi_of_pointer dr hptr) (.memRead hptr)

/-! ## LEA (R163) -/

/-- Settles O25: the result LEA writes is the pc-relative address itself. -/
theorem leaEffect : Obligations.LeaEffect := by
  intro dr off9 s
  obtain ⟨t, hexec, hresult, honly⟩ := exec_result (i := .lea dr off9) (s := s) rfl
  exact ⟨t, hexec, by rw [hresult, pcRelative_toNat (by decide)], honly⟩

end Sys2Proof.Machine

/-! SUPPORT. Proofs of the statements about the stores (44_store.md). -/

namespace Sys2Proof.Machine

/-! ## An instruction that ends by writing a word (R170 to R172) -/

/-- Reads that move the streams alone, then the word `v` written at `a`: the end of a store. -/
theorem onlyStored_memWrite {s u : State} (a v : Word) (hu : StreamsOnly s u) :
    OnlyStored s u { u.memWrite a v with stage := .fetch } a v := by
  obtain ⟨hsame, hother, htrace, hrun, hinp, hregs, hcond, hpc⟩ := memWriteStoresEverywhere u a v
  rw [hu.running] at hrun
  exact ⟨hsame, fun b hb => (hother b hb).trans (hu.keepsCells b), htrace, hrun,
    fun r hr => (hregs r hr).trans (State.reg_congr hu.regs r), hcond.trans hu.cond, hpc.trans hu.pc,
    (u.memWrite_ir a v).trans hu.ir, (u.memWrite_params a v).trans hu.params, hinp, rfl⟩

/-- An instruction whose meaning, once its reads have left `u`, is to write `v` at `a`, completes with that
word stored, the device effects of the write, and nothing else changed. -/
theorem exec_store {i : Instr} {s u : State} {a v : Word} (hexec : exec i s = complete (u.memWrite a v))
    (hu : StreamsOnly s u) : ∃ t, exec i s = .next t ∧ OnlyStored s u t a v :=
  ⟨_, hexec, onlyStored_memWrite a v hu⟩

/-- Settles O28: ST and STR are one write each, with no read before it. -/
theorem storeEffect : Obligations.StoreEffect :=
  ⟨fun _ _ s => exec_store rfl (.refl s), fun _ _ _ s => exec_store rfl (.refl s)⟩

/-- STI, its pointer read answered, writes through the pointer in the state that read left, which has the
registers of the old one (R171). -/
theorem execSti_of_pointer {off9 : BitVec 9} {s u : State} {ea : Word} (sr : RegIx)
    (hptr : s.memRead (pcRelative s.pc off9) = .value ea u) :
    execSti sr off9 s = complete (u.memWrite ea (s.reg sr)) := by
  simp only [execSti, hptr, State.reg_congr (StreamsOnly.memRead hptr).regs]

/-- Settles O29: the pointer read moves the streams alone, and the write through it is the store. -/
theorem storeIndirectEffect : Obligations.StoreIndirectEffect := by
  intro sr off9 s hready
  obtain ⟨ea, u, hptr⟩ := State.memRead_of_readable hready
  obtain ⟨t, hexec, hstored⟩ := exec_store (i := .sti sr off9) (execSti_of_pointer sr hptr) (.memRead hptr)
  exact ⟨ea, u, t, hptr, hexec, hstored⟩

end Sys2Proof.Machine

/-! SUPPORT. Proofs of the statements about JMP, JSR and JSRR (45_jump.md). -/

namespace Sys2Proof.Machine

/-! ## A jump that links through x[7] (R181, R182) -/

/-- A cycle that completes with one register and the pc written, and nothing else. -/
theorem onlyTransfer_setReg (s : State) (r : RegIx) (v pc : Word) :
    OnlyTransfer s { s.setReg r v with pc := pc, stage := .fetch } [r] :=
  ⟨keepsRegs_of_regs_eq_set (v := v) rfl, rfl, fun _ => rfl, ⟨rfl, rfl, rfl⟩, ⟨rfl, rfl⟩, rfl⟩

/-- An instruction whose meaning is to link through x[7] and jump to `target` completes with the incremented
pc in x[7], `target` in the pc, and nothing else changed. -/
theorem exec_call {i : Instr} {s : State} {target : Word}
    (hexec : exec i s = complete { s.setReg 7 s.pc with pc := target }) :
    ∃ t, exec i s = .next t ∧ t.reg 7 = s.pc ∧ t.pc = target ∧ OnlyTransfer s t [7] :=
  ⟨_, hexec, s.reg_setReg_same 7 s.pc, rfl, onlyTransfer_setReg s 7 s.pc target⟩

/-- Settles O31: both are calls. JSR's target is the pc-relative address; JSRR's is the base register of the
state with the link already written, which is the link where the base is x[7] (90_conflicts.md C8). -/
theorem subroutineCallEffect : Obligations.SubroutineCallEffect := by
  refine ⟨fun off11 s => ?jsr, fun base s => ?jsrr⟩
  case jsr =>
    obtain ⟨t, hexec, hlink, hpc, honly⟩ := exec_call (i := .jsr off11) (s := s) rfl
    exact ⟨t, hexec, hlink, by rw [hpc, pcRelative_toNat (by decide)], honly⟩
  case jsrr =>
    obtain ⟨t, hexec, hlink, hpc, honly⟩ := exec_call (i := .jsrr base) (s := s) rfl
    exact ⟨t, hexec, hlink, hpc.trans (s.reg_setReg 7 base s.pc), honly⟩

/-! ## JMP (R180) -/

/-- Settles O30: JMP writes the pc alone. -/
theorem jumpEffect : Obligations.JumpEffect :=
  fun base s => ⟨_, rfl, rfl, onlyTransfer_of_pc s (s.reg base)⟩

end Sys2Proof.Machine

/-! SUPPORT. Proofs of the statements about the reserved opcodes and the undefined trap vectors (46_reserved.md,
47_trap.md R207), alone and in a whole cycle. -/

namespace Sys2Proof

/-! ## The words that do nothing (R141, R190, R191) -/

section
variable {w mask val : Word}

/-- Under a mask that holds the opcode, the masked word tells the opcode. -/
theorem ofBits_opcodeField_of_masked (h : w &&& mask = val) (hm : mask.extractLsb' 12 4 = BitVec.allOnes 4) :
    Opcode.ofBits (opcodeField w) = Opcode.ofBits (opcodeField val) :=
  congrArg Opcode.ofBits (field_of_masked h 12 4 hm)

theorem decode_of_rti_word (h : w &&& 0xF000#16 = 0x8000#16) : decode w = .rti := by
  have hop : Opcode.ofBits (opcodeField w) = .rti := ofBits_opcodeField_of_masked h rfl
  simp only [decode, hop]

theorem decode_of_res_word (h : w &&& 0xF000#16 = 0xD000#16) : decode w = .res := by
  have hop : Opcode.ofBits (opcodeField w) = .res := ofBits_opcodeField_of_masked h rfl
  simp only [decode, hop]

theorem decode_of_br_mask_none_word (h : w &&& 0xFE00#16 = 0x0000#16) :
    decode w = .br false false false (off9Field w) := by
  have hop : Opcode.ofBits (opcodeField w) = .br := ofBits_opcodeField_of_masked h rfl
  have hn : w.getLsbD 11 = false := bit_of_masked h 11 rfl
  have hz : w.getLsbD 10 = false := bit_of_masked h 10 rfl
  have hp : w.getLsbD 9 = false := bit_of_masked h 9 rfl
  simp only [decode, hop, hn, hz, hp]

end

end Sys2Proof

namespace Sys2Proof.Machine

/-- A branch with mask 000 is its cycle alone (R141). -/
theorem execBr_mask_none (off9 : BitVec 9) (s : State) : execBr false false false off9 s = complete s := by
  rw [execBr, branchTaken_mask_none, if_neg Bool.false_ne_true]

/-- Each word of the three kinds decodes to an instruction that only completes its cycle. -/
theorem exec_decode_of_noOp_word {w : Word}
    (h : w &&& 0xF000#16 = 0x8000#16 ∨ w &&& 0xF000#16 = 0xD000#16 ∨ w &&& 0xFE00#16 = 0x0000#16) (s : State) :
    exec (decode w) s = complete s := by
  obtain hrti | hres | hbr := h
  · rw [decode_of_rti_word hrti]
    rfl
  · rw [decode_of_res_word hres]
    rfl
  · rw [decode_of_br_mask_none_word hbr]
    exact execBr_mask_none _ s

/-- Settles O41: the fetch latches the word and advances the pc, and completing the cycle leaves the stage at the
fetch, where it was. -/
theorem noOpCycleOnlyAdvances : Obligations.NoOpCycleOnlyAdvances := by
  intro s hrun hstage hplain hword
  calc step s = exec (decode (s.cell s.pc)) (s.latch (s.cell s.pc)) := step_of_plain_fetch hrun hstage hplain rfl
    _ = complete (s.latch (s.cell s.pc)) := exec_decode_of_noOp_word hword _
    _ = .next { s with ir := s.cell s.pc, pc := s.pc + 1 } := by rw [complete, State.latch, ← hstage]

/-! ## RTI, RES and the undefined vectors (R190, R191, R207) -/

/-- An instruction whose meaning is to complete the cycle keeps the pc and all else. -/
theorem exec_noOp {i : Instr} {s : State} (hexec : exec i s = complete s) :
    ∃ t, exec i s = .next t ∧ t.pc = s.pc ∧ OnlyTransfer s t [] :=
  ⟨_, hexec, rfl, onlyTransfer_of_pc s s.pc⟩

/-- Settles O32: each of the three has that meaning. -/
theorem reservedInstructionsDoNothing : Obligations.ReservedInstructionsDoNothing := by
  rintro i s (rfl | rfl | ⟨v, -, rfl⟩)
  case inl | inr.inl | inr.inr => exact exec_noOp rfl

end Sys2Proof.Machine

/-! SUPPORT. Proofs of the statements about the six trap services (47_trap.md R201 to R206, R208, R209). -/

namespace Sys2Proof.Machine

/-! ## The services that only emit (R202, R203, R205) -/

/-- `t` is `s` at the next fetch, but for the trace: the frame of OUT, PUTS and PUTSP (R208). -/
def OnlyEmits (s t : State) : Prop :=
  t.inp = s.inp ∧ t.pc = s.pc ∧ t.cond = s.cond ∧ KeepsRegs s t [] ∧ KeepsCells s t ∧ KeepsControl s t ∧
    t.stage = .fetch

/-- An instruction whose meaning is to emit `bs` completes with those bytes at the end of the trace and of OUT,
and nothing else changed. -/
theorem exec_emit {i : Instr} {s : State} {bs : List Byte} (hexec : exec i s = complete (s.emit bs)) :
    ∃ t, exec i s = .next t ∧ t.trace = s.trace ++ bs.map .out ∧ t.out = s.out ++ bs ∧ OnlyEmits s t :=
  ⟨_, hexec, rfl, s.out_emit bs, rfl, rfl, rfl, keepsRegs_of_regs_eq rfl [], fun _ => rfl,
    ⟨rfl, rfl, rfl⟩, rfl⟩

/-- Settles O34: the one byte is the low byte of x[0]. -/
theorem outEffect : Obligations.OutEffect := by
  intro s
  rw [← lowByte_eq_setWidth]
  exact exec_emit (i := .trapOut) (s := s) rfl

/-! ## The strings of PUTS and PUTSP (R203, R205, R209) -/

/-- An index below the end of memory is the address of the cell there. -/
theorem State.cell_ofNat (s : State) {n : Nat} (hn : n < 65536) : s.cell (BitVec.ofNat 16 n) = s.mem.read n := by
  rw [State.cell, BitVec.toNat_ofNat, Nat.mod_eq_of_lt hn]

/-- The string at `a`, by the cells it lies in: these are not zero, and after them comes a zero cell or the end
of memory. -/
theorem State.stringAt_cells (s : State) (a : Word) :
    ∃ n, a.toNat + n ≤ 65536 ∧ (∀ k < n, s.cell (BitVec.ofNat 16 (a.toNat + k)) ≠ 0#16) ∧
      (a.toNat + n = 65536 ∨ s.cell (BitVec.ofNat 16 (a.toNat + n)) = 0#16) ∧
      s.mem.stringAt a = (List.range n).map fun k => s.cell (BitVec.ofNat 16 (a.toNat + k)) := by
  obtain ⟨n, hfits, hnonzero, hend, hwords⟩ := s.mem.stringAt_spec a
  have hcell : ∀ k < n, s.cell (BitVec.ofNat 16 (a.toNat + k)) = s.mem.read (a.toNat + k) :=
    fun k hk => s.cell_ofNat ((Nat.add_lt_add_left hk a.toNat).trans_le hfits)
  refine ⟨n, hfits, fun k hk => ?nonzero, ?ends, ?words⟩
  case nonzero =>
    rw [hcell k hk]
    exact hnonzero k hk
  case ends =>
    obtain hlast | hlt := hfits.eq_or_lt
    · exact .inl hlast
    · exact .inr ((s.cell_ofNat hlt).trans (hend.resolve_left hlt.ne))
  case words =>
    rw [hwords]
    exact List.map_congr_left fun k hk => (hcell k (List.mem_range.1 hk)).symm

/-- Settles O35: PUTS emits the low bytes of the string's words. -/
theorem putsEffect : Obligations.PutsEffect := by
  intro s
  obtain ⟨n, hfits, hnonzero, hend, hwords⟩ := s.stringAt_cells (s.reg 0)
  obtain ⟨t, hexec, htrace, -, hframe⟩ := exec_emit (i := .trapPuts) (s := s) rfl
  refine ⟨t, n, hexec, hfits, hnonzero, hend, ?_, hframe⟩
  simp only [htrace, hwords, List.map_map, Function.comp_def, lowByte_eq_setWidth]

/-- Settles O36: PUTSP emits the packed bytes of the string's words. -/
theorem putspEffect : Obligations.PutspEffect := by
  intro s
  obtain ⟨n, hfits, hnonzero, hend, hwords⟩ := s.stringAt_cells (s.reg 0)
  obtain ⟨t, hexec, htrace, hout, hframe⟩ := exec_emit (i := .trapPutsp) (s := s) rfl
  refine ⟨t, n, hexec, hfits, hnonzero, hend, ?out, ?trace, hframe⟩
  case out =>
    rw [hout, hwords, List.flatMap_map, funext packedBytes_eq]
    rfl
  case trace => rw [hout, List.drop_left, htrace]

/-! ## The services that read (R201, R204) -/

/-- `t` is `s` at the next fetch, but for the character `v` in x[0] and the streams: the frame of GETC and IN
(R208). -/
def OnlyTakesChar (s t : State) (v : Word) : Prop :=
  t.reg 0 = v ∧ t.pc = s.pc ∧ t.cond = s.cond ∧ KeepsRegs s t [0] ∧ KeepsCells s t ∧ KeepsControl s t ∧
    t.stage = .fetch

/-- Reads and emissions that move the streams alone, then `v` written to x[0]. -/
theorem onlyTakesChar_setReg {s u : State} (v : Word) (hu : StreamsOnly s u) :
    OnlyTakesChar s { u.setReg 0 v with stage := .fetch } v :=
  ⟨u.reg_setReg_same 0 v, hu.pc, hu.cond, keepsRegs_of_regs_eq_set (v := v) (by simp [hu.regs]), hu.keepsCells,
    hu.keepsControl, rfl⟩

/-- GETC, its character there, completes with it in x[0]. -/
theorem execTrapGetc_of_nextChar {s u : State} {v : Word} (h : s.nextChar = .value v u) :
    execTrapGetc s = complete (u.setReg 0 v) := by
  rw [execTrapGetc, h]

/-- Settles O33: the character NextChar gives goes to x[0]. -/
theorem getcEffect : Obligations.GetcEffect := by
  intro s hready
  obtain ⟨v, u, hread⟩ := State.nextChar_of_ready hready
  obtain ⟨hreg, hpc, hcond, hregs, hcells, hcontrol, hstage⟩ := onlyTakesChar_setReg v (.nextChar hread)
  exact ⟨v, u, _, hread, execTrapGetc_of_nextChar hread, hreg, hcond, hpc, hregs, hcells, hcontrol, rfl, rfl, hstage⟩

/-- With input there, `NextChar()` adds one event to the trace, and what was in the trace before changes neither
its answer nor that event. -/
theorem State.nextChar_with_trace {s : State} (h : s.inputReady = true) :
    ∃ v u ev, s.nextChar = .value v u ∧ u.trace = s.trace ++ [ev] ∧
      ∀ tr, State.nextChar { s with trace := tr } = .value v { u with trace := tr ++ [ev] } := by
  rcases s.nextChar_cases with ⟨c, rest, hq, e⟩ | ⟨hq, he, e⟩ | ⟨hq, he, -⟩
  · exact ⟨_, _, .inChar c, e, rfl, fun _ => State.nextChar_of_head hq⟩
  · exact ⟨_, _, .inEof, e, rfl, fun _ => State.nextChar_of_eof hq he⟩
  · simp [s.inputReady_eq_false_iff.2 ⟨hq, he⟩] at h

/-- IN, the character it reads after its prompt there, completes with it in x[0] and its low byte echoed. -/
theorem execTrapIn_of_nextChar {s u : State} {v : Word} (h : (promptedState s).nextChar = .value v u) :
    execTrapIn s = complete ((u.emit [lowByte v]).setReg 0 v) := by
  rw [execTrapIn, h]
  rfl

/-- Settles O37: with input there the read answers as it would before the prompt; without, IN waits in the
prompted state. -/
theorem inPromptsReadsEchoes : Obligations.InPromptsReadsEchoes := by
  refine ⟨fun s hready => ?reads, fun s hready => ?waits⟩
  case reads =>
    obtain ⟨v, u, ev, hread, htrace, hanyTrace⟩ := State.nextChar_with_trace hready
    have hprompted := (congrArg State.nextChar (promptedState_eq s)).trans (hanyTrace _)
    have hstreams := ((StreamsOnly.promptedState s).trans (.nextChar hprompted)).trans (.emit _ [lowByte v])
    obtain ⟨hreg, hframe⟩ := onlyTakesChar_setReg v hstreams
    refine ⟨v, u, ev, _, hread, htrace, execTrapIn_of_nextChar hprompted, hreg, ?trace, rfl, hframe⟩
    case trace => simp [lowByte_eq_setWidth]
  case waits => rw [exec_waits rfl hready, State.waitingIn_of_trapIn rfl, promptedState_eq]

/-! ## HALT (R206) -/

/-- Settles O38: HALT writes the run-state flag alone. -/
theorem haltEffect : Obligations.HaltEffect := fun _ =>
  ⟨_, rfl, rfl, rfl, rfl, keepsRegs_of_regs_eq rfl [], fun _ => rfl, ⟨rfl, rfl⟩, rfl, rfl, rfl⟩

end Sys2Proof.Machine

/-! SUPPORT. Proofs of the statements about exceptions and halting (60_exceptions.md), and about program images and
the completion of instructions (70_reset_and_hazards.md). -/

namespace Sys2Proof.Machine

/-! ## Every outcome is a next state (60_exceptions.md R240) -/

theorem finishLoad_next (dr : RegIx) (r : Access) : ∃ t, finishLoad dr r = .next t := by
  cases r with
  | value v s => exact ⟨_, rfl⟩
  | waits s => exact ⟨_, rfl⟩

/-- Every instruction answers a next state: the readers whether or not their reads wait, the others by
completing. -/
theorem exec_next (i : Instr) (s : State) : ∃ t, exec i s = .next t := by
  cases i with
  | ld | ldr => exact finishLoad_next _ _
  | ldi dr off9 =>
    rw [exec, execLdi]
    cases s.memRead (pcRelative s.pc off9) with
    | value ea u => exact finishLoad_next dr (u.memRead ea)
    | waits u => exact ⟨_, rfl⟩
  | sti sr off9 =>
    rw [exec, execSti]
    cases s.memRead (pcRelative s.pc off9) with
    | value ea u => exact ⟨_, rfl⟩
    | waits u => exact ⟨_, rfl⟩
  | trapGetc =>
    rw [exec, execTrapGetc]
    cases s.nextChar with
    | value v u => exact ⟨_, rfl⟩
    | waits u => exact ⟨_, rfl⟩
  | trapIn =>
    rw [exec, execTrapIn]
    cases (promptedState s).nextChar with
    | value v u => exact ⟨_, rfl⟩
    | waits u => exact ⟨_, rfl⟩
  | br | addReg | addImm | st | jsr | jsrr | andReg | andImm | str | rti | not | jmp | res | lea | trapOut | trapPuts
  | trapPutsp | trapHalt | trapOther => exact ⟨_, rfl⟩

/-- Every step answers a next state: HALTED, waiting in its fetch, or executing an instruction. -/
theorem step_next (s : State) : ∃ t, step s = .next t := by
  cases hrun : s.running with
  | false => exact ⟨s, step_of_halted hrun⟩
  | true =>
    by_cases hstage : s.stage = .fetch
    · cases hread : s.memRead s.pc with
      | value w u =>
        rw [step_of_issued (State.issued_of_fetch hrun hstage hread)]
        exact exec_next (decode w) (u.latch w)
      | waits u => exact ⟨u, step_of_fetch_waits hrun hstage hread⟩
    · rw [step_of_waiting hrun hstage]
      exact exec_next (decode s.ir) s

/-- An outcome that is a next state is neither a fault nor a refusal. -/
theorem not_raised_of_next {o : Host.Outcome State Fault Refusal} (h : ∃ t, o = .next t) :
    (∀ f, o ≠ .fault f) ∧ ∀ r, o ≠ .refused r := by
  obtain ⟨t, rfl⟩ := h
  exact ⟨nofun, nofun⟩

/-- Settles O44: every instruction and every step answers a next state. -/
theorem nothingRaises : Obligations.NothingRaises :=
  ⟨fun i s => not_raised_of_next (exec_next i s), fun s => not_raised_of_next (step_next s)⟩

/-! ## From RUNNING to HALTED (60_exceptions.md R245) -/

theorem finishLoad_memRead_running {s t : State} {a : Word} {dr : RegIx}
    (h : finishLoad dr (s.memRead a) = .next t) : t.running = s.running := by
  rcases finishLoad_memRead_eq_next h with ⟨v, u, hread, rfl⟩ | ⟨-, -, rfl⟩
  · exact (StreamsOnly.memRead hread).running
  · rfl

/-- An instruction that neither stores nor is HALT leaves the run-state flag (10_state.md R29). -/
theorem exec_running_of_storeOf_eq_none {i : Instr} {s t : State} (hstore : s.storeOf i = none)
    (hi : i ≠ .trapHalt) (h : exec i s = .next t) : t.running = s.running := by
  cases i with
  | st | str => cases hstore
  | trapHalt => exact absurd rfl hi
  | sti sr off9 =>
    rcases execSti_eq_next h with ⟨ea, u, hptr, -⟩ | ⟨-, -, rfl⟩
    · simp [State.storeOf, hptr] at hstore
    · rfl
  | ld | ldr => exact finishLoad_memRead_running h
  | ldi =>
    rcases execLdi_eq_next h with ⟨ea, u, v, w, hptr, hread, rfl⟩ | ⟨-, -, rfl⟩
    · exact ((StreamsOnly.memRead hptr).trans (.memRead hread)).running
    · rfl
  | br n z p off9 =>
    cases complete_eq_next ((execBr_eq n z p off9 s).symm.trans h)
    rfl
  | trapGetc =>
    rcases execTrapGetc_eq_next h with ⟨v, u, hread, rfl⟩ | ⟨-, rfl⟩
    · exact (StreamsOnly.nextChar hread).running
    · rfl
  | trapIn =>
    rcases execTrapIn_eq_next h with ⟨v, u, hread, rfl⟩ | ⟨-, rfl⟩
    · exact ((StreamsOnly.promptedState s).trans (.nextChar hread)).running
    · exact (StreamsOnly.promptedState s).running
  | addReg | addImm | andReg | andImm | not | lea | jsr | jsrr | jmp | rti | res | trapOut | trapPuts | trapPutsp
  | trapOther =>
    cases complete_eq_next h
    rfl

/-- Executed in `s`, the instruction halts a running core: it is HALT, or it stores to MCR a word with bit 15 clear. -/
def State.haltedBy (s : State) (i : Instr) : Prop :=
  i = .trapHalt ∨ ∃ v : Word, s.storeOf i = some (mcrAddr, v) ∧ v.getLsbD 15 = false

theorem State.haltedBy_iff_of_storeOf {s : State} {i : Instr} {a v : Word} (h : s.storeOf i = some (a, v)) :
    s.haltedBy i ↔ a = mcrAddr ∧ v.getLsbD 15 = false := by
  have hi : i ≠ .trapHalt := by rintro rfl; cases h
  simp [State.haltedBy, hi, h]

/-- A running core is HALTED after an instruction exactly when the instruction halts it. -/
theorem exec_halts_iff {i : Instr} {s t : State} (hrun : s.running = true) (h : exec i s = .next t) :
    t.running = false ↔ s.haltedBy i := by
  cases hstore : s.storeOf i with
  | some store =>
    obtain ⟨a, v⟩ := store
    obtain ⟨u, hu, hexec⟩ := exec_of_storeOf hstore
    cases complete_eq_next (hexec.symm.trans h)
    rw [State.haltedBy_iff_of_storeOf hstore]
    simp [hu.running, hrun]
  | none =>
    by_cases hi : i = .trapHalt
    · subst hi
      cases complete_eq_next h
      exact iff_of_true rfl (.inl rfl)
    · rw [exec_running_of_storeOf_eq_none hstore hi h, hrun]
      simp [State.haltedBy, hi, hstore]

/-- A running core whose step ends HALTED has executed an instruction, and that instruction halts it. -/
theorem step_halts_iff {s t : State} (hrun : s.running = true) (h : step s = .next t) :
    t.running = false ↔ ∃ i u, s.issued = some (i, u) ∧ u.haltedBy i := by
  have hissued : ∀ {i u}, s.issued = some (i, u) → (t.running = false ↔ u.haltedBy i) := fun hi =>
    exec_halts_iff (State.issued_running hi) ((step_of_issued hi).symm.trans h)
  refine ⟨fun hhalt => ?_, fun ⟨i, u, hi, hhalts⟩ => (hissued hi).2 hhalts⟩
  rcases step_eq_next h with ⟨hhalted, -⟩ | ⟨-, -, -, -, rfl⟩ | ⟨i, u, hi, -⟩
  · exact absurd hhalted (by simp [hrun])
  · exact absurd hhalt (by simp [hrun])
  · exact ⟨i, u, hi, (hissued hi).1 hhalt⟩

/-- Settles O45: by what each instruction does to the run-state flag, and since a HALTED core's step is the
identity. -/
theorem haltedIsTerminal : Obligations.HaltedIsTerminal := by
  refine ⟨fun _ _ => rfl, fun s t => step_halts_iff, fun s t k hrun h => ?_⟩
  cases (run_of_step_self (step_of_halted hrun) k).symm.trans h
  rfl

/-! ## Loading an image (70_reset_and_hazards.md R272 to R274) -/

/-- The parameters an image gives: the base ones, with the origin as the entry and the body in memory from there
upwards. -/
def imageParams (base : ResetParams) (origin : Word) (body : List Word) : ResetParams :=
  { base with entryPc := origin, initMem := base.initMem.writeBlock origin.toNat body }

/-- An image that ends at or before the last address is accepted. -/
theorem loadImage_of_fits (base : ResetParams) {origin : Word} {body : List Word}
    (hfits : origin.toNat + body.length ≤ memSize) :
    loadImage base (origin :: body) = some (imageParams base origin body) := if_pos hfits

/-- The file of such an image, two bytes a word with the more significant first, gives the reset with its
parameters. -/
theorem State.resetWithImage_of_fits (base : ResetParams) (inp : InputStream) {origin : Word} {body : List Word}
    (hfits : origin.toNat + body.length ≤ memSize) :
    State.resetWithImage base inp ((origin :: body).flatMap fun w => [w.extractLsb' 8 8, w.extractLsb' 0 8]) =
      some (State.resetWith (imageParams base origin body) inp) := by
  rw [State.resetWithImage, imageWords_flatMap, Option.bind_some, loadImage_of_fits base hfits, Option.map_some]

/-- Below the end of memory, addresses add up without wrapping. -/
theorem toNat_add_ofNat {a : Word} {k : Nat} (h : a.toNat + k < memSize) :
    (a + BitVec.ofNat 16 k).toNat = a.toNat + k := by
  rw [BitVec.toNat_add, BitVec.toNat_ofNat, Nat.add_mod_mod, Nat.mod_eq_of_lt h]

/-- Settles O2: the image's file is read back as its words, and the words are written as one block. -/
theorem imageLoadsAtItsOrigin : Obligations.ImageLoadsAtItsOrigin := by
  intro base inp origin body hfits
  refine ⟨_, State.resetWithImage_of_fits base inp hfits, rfl, fun k hk => ?body, fun a ha => ?elsewhere,
    rfl, rfl, rfl⟩
  case body =>
    have haddr := toNat_add_ofNat (a := origin) ((Nat.add_lt_add_left hk _).trans_le hfits)
    rw [State.cell, haddr]
    exact Memory.read_writeBlock_inside body base.initMem origin.toNat k hk
  case elsewhere =>
    rcases ha with hbelow | habove
    · exact Memory.read_writeBlock_below body base.initMem hbelow
    · exact Memory.read_writeBlock_above body base.initMem habove

/-! ## Completion (70_reset_and_hazards.md R292, 40_cycle.md R123) -/

/-- An instruction that reads no input has no read to wait at. -/
theorem State.awaitsInput_of_not_mayWait (s : State) {i : Instr} (h : i.mayWait = false) :
    s.awaitsInput i = false := by
  cases i with
  | ld | ldi | ldr | sti | trapGetc | trapIn => cases h
  | br | addReg | addImm | st | jsr | jsrr | andReg | andImm | str | rti | not | jmp | res | lea | trapOut | trapPuts
  | trapPutsp | trapHalt | trapOther => rfl

theorem State.waitingIn_stage_ne_fetch (s : State) (i : Instr) : (s.waitingIn i).stage ≠ .fetch := by
  unfold State.waitingIn
  split <;> exact nofun

/-- An instruction's cycle is complete exactly if, should its next read be of input, input is there. -/
theorem exec_completes_iff {i : Instr} {s t : State} (h : exec i s = .next t) :
    t.stage = .fetch ↔ (s.awaitsInput i = true → s.inputReady = true) := by
  refine ⟨fun hfetch hawaits => ?_, fun hinput => ?_⟩
  · by_contra hready
    cases (exec_waits hawaits (Bool.eq_false_iff.2 hready)).symm.trans h
    exact s.waitingIn_stage_ne_fetch i hfetch
  · rcases exec_completes_or_waits h with hfetch | ⟨hawaits, hready, -⟩
    · exact hfetch
    · simp [hinput hawaits] at hready

/-- Settles O47: either half of the first hypothesis rules the wait out. -/
theorem instructionsCompleteGivenInput : Obligations.InstructionsCompleteGivenInput := by
  refine ⟨fun i s hinput => ?_, fun i s => ?_⟩ <;> obtain ⟨t, hexec⟩ := exec_next i s
  · refine ⟨t, hexec, (exec_completes_iff hexec).2 fun hawaits => hinput.resolve_left fun hreads => ?_⟩
    simp [s.awaitsInput_of_not_mayWait hreads] at hawaits
  · exact ⟨t, hexec, exec_completes_iff hexec⟩

end Sys2Proof.Machine
